-- ==== Sys2Proof/Word.lean ====
section
/-! DEFINITION. The words of CUO-HBD: bytes, the ARG operand, and the part of a request record that says what is asked. -/

namespace Sys2Proof

/-- One byte of storage, of DATA_IN or of DATA_OUT (R40), the command byte (R57), the status byte (R55). -/
abbrev Byte := BitVec 8

/-- The ARG operand, `ARG_W` = 32 bits, an unsigned number (R7, R56). -/
abbrev Arg := BitVec 32

/-- A request record of R54 without its `agent` field: command byte, ARG, DATA_IN. -/
structure Command where
  cmd  : Byte
  arg  : Arg
  data : List Byte
  deriving DecidableEq, Repr

end Sys2Proof
end

