-- ==== Sys2Proof/Config.lean ====
section
/-! DEFINITION. What is fixed for one instance of the block (00_scope.md R7 to R10), the agents (R7, R14), and the values the spec leaves free. -/

namespace Sys2Proof

/-- `AGENTS` (R7, R14): A0 is the connection's owning thread, A1 the secondary producer. -/
inductive Agent where
  | A0
  | A1
  deriving DecidableEq, Repr, Inhabited

/-- `GROW_QUANTUM` (R7, R8): the ring grows to multiples of this many bytes. -/
abbrev growQuantum : Nat := 2048

/-- `TREE_NODES` (R7, R8). -/
abbrev treeNodes : Nat := 256

/-- `TREE_SLOTS` (R7): two entries a node. -/
abbrev treeSlots : Nat := 512

/-- `SENTINEL` (R7, R8): the resynchronisation entry. -/
abbrev sentinel : Int := -256

/-- The largest well-formed tree entry, the greatest child index (R9). -/
abbrev maxEntry : Int := 255

/-- One past the longest DATA_IN the request port carries (R54). -/
abbrev dataLimit : Nat := 2 ^ 32

/-- A stored tree entry. R10: the well-formed values are exactly the 9-bit two's-complement numbers, and a model may store
them so; then no ill-formed tree can be written down (log entry 2, DEDUCED, safe). -/
abbrev TreeEntry := BitVec 9

/-- The decode tree ROM, indexed by `2*node + bit` (R30). -/
abbrev Tree := Vector TreeEntry treeSlots

/-- The parameters of one instance (R7), constant for its life. `maxCapacity = none` is MAX_CAPACITY `unbounded`. -/
structure Config where
  tree         : Tree
  initCapacity : Nat
  maxCapacity  : Option Nat
  stageCap     : Nat
  deriving DecidableEq, Repr

/-- MAX_CAPACITY is bounded and `n` exceeds it (R71). -/
def Config.exceedsMax (c : Config) (n : Nat) : Bool :=
  match c.maxCapacity with
  | none => false
  | some m => decide (m < n)

/-- The ranges R7 gives INIT_CAPACITY and MAX_CAPACITY. -/
abbrev Config.wf (c : Config) : Prop :=
  1 ≤ c.initCapacity ∧ c.exceedsMax c.initCapacity = false

/-- Why a set of parameters is no configuration (R7, R9). -/
inductive ConfigError where
  /-- the tree has not 512 entries, or one outside -256..255 (R9) -/
  | treeNotWellFormed
  /-- INIT_CAPACITY is 0 (R7) -/
  | initCapacityZero
  /-- MAX_CAPACITY is below INIT_CAPACITY (R7) -/
  | maxBelowInit
  deriving DecidableEq, Repr

/-- Well-formedness of a tree given as signed integers (R9). -/
abbrev treeWellFormed (tree : List Int) : Prop :=
  tree.length = treeSlots ∧ ∀ v ∈ tree, sentinel ≤ v ∧ v ≤ maxEntry

/-- The tree ROM that holds the given integers. -/
def Tree.ofInts (tree : List Int) (h : tree.length = treeSlots) : Tree :=
  ⟨(tree.map (BitVec.ofInt 9)).toArray, by simp [h]⟩

/-- Settling the configuration before the first command (R147 step 1): a model refuses an ill-formed tree (R9), and
capacities outside R7's ranges. -/
def Config.ofParameters (tree : List Int) (initCapacity : Nat) (maxCapacity : Option Nat) (stageCap : Nat) :
    Except ConfigError Config :=
  if h : treeWellFormed tree then
    let c : Config := ⟨Tree.ofInts tree h.1, initCapacity, maxCapacity, stageCap⟩
    if initCapacity = 0 then .error .initCapacityZero
    else if c.exceedsMax initCapacity then .error .maxBelowInit
    else .ok c
  else .error .treeNotWellFormed

/-! The installed instance: R7 leaves its parameters OPEN, so each is a constant without a body (log entry 1). -/

/-- TREE of the installed instance (OPEN, D20). -/
opaque Config.installedTree : Tree

/-- INIT_CAPACITY - 1 of the installed instance (OPEN, D12): written so that INIT_CAPACITY >= 1 holds by its form. -/
opaque Config.initCapacityLessOne : Nat

/-- MAX_CAPACITY - INIT_CAPACITY of the installed instance, or none for `unbounded` (OPEN, D13). -/
opaque Config.maxCapacityHeadroom : Option Nat

/-- STAGE_CAP of the installed instance (OPEN, D21). -/
opaque Config.installedStageCap : Nat

/-- The configuration of the instance that `State.reset` starts: arbitrary within R7's ranges. -/
def Config.installed : Config where
  tree := Config.installedTree
  initCapacity := Config.initCapacityLessOne + 1
  maxCapacity := Config.maxCapacityHeadroom.map (fun h => Config.initCapacityLessOne + 1 + h)
  stageCap := Config.installedStageCap

/-! Free values (log entries 4, 9 and 11): constants without a body, applied to a counter of State that a use advances. -/

/-- `D.bitPosition` where the spec makes it unspecified: still a number in 0..8 (R24, R100). -/
opaque Config.freeBitPosition : Nat → Fin 9

/-- `D.currentByte` where the spec makes it unspecified (R100, R122). -/
opaque Config.freeCurrentByte : Nat → Byte

/-- `D.bitMask` where the spec makes it unspecified (R100, R122). -/
opaque Config.freeBitMask : Nat → Byte

/-- `D.treeNode` where the spec makes it unspecified: still a node index (R27, R100). -/
opaque Config.freeTreeNode : Nat → Fin treeNodes

/-- The byte at an address of ring storage that nothing has written since the storage was allocated (R21, R34, R69, R122:
unspecified), by the number of the allocation and the address (log entry 9). -/
opaque Config.freeStorageByte : (allocation address : Nat) → Byte

/-- Which agent is served when both could be and State lists no further choice (R48, I12). -/
opaque Config.freeTurn : Nat → Agent

end Sys2Proof
end

