-- ==== Sys2Proof/Syntax.lean ====
section
/-! DEFINITION. The twelve commands of the opcode map (30_encoding.md R58), each with the operands the map marks as used. -/

namespace Sys2Proof

/-- One constructor per row of the opcode table. The issuing agent is no operand: it is the request's `agent` field (R54). -/
inductive Instr where
  /-- RB_ENQ: enqueue DATA_IN (R77) -/
  | rbEnq (data : List Byte)
  /-- RB_DEQ: dequeue up to ARG bytes (R79) -/
  | rbDeq (maxLen : Arg)
  /-- RB_PEEK: read a contiguous segment of up to ARG bytes (R80) -/
  | rbPeek (maxLen : Arg)
  /-- RB_CLR: clear the ring (R78) -/
  | rbClr
  /-- RB_IDX: read the live byte at index ARG (R81) -/
  | rbIdx (i : Arg)
  /-- RB_LEN: read the ring's length (R82) -/
  | rbLen
  /-- RB_LOCK: acquire the ring's mutex (R83) -/
  | rbLock
  /-- RB_UNLOCK: release the ring's mutex (R84) -/
  | rbUnlock
  /-- HD_DEC: decompress DATA_IN into at most ARG bytes (R101) -/
  | hdDec (cap : Arg) (chunk : List Byte)
  /-- RX_CMPEN: enable compression (R120) -/
  | rxCmpen
  /-- RX_FEED: feed one received chunk (R121) -/
  | rxFeed (chunk : List Byte)
  /-- CONN_RST: connection reset (R122) -/
  | connRst
  deriving DecidableEq, Repr

end Sys2Proof
end

