-- ==== Sys2Proof/WellFormed.lean ====
section
/-! DEFINITION. Which commands the request port can carry: the one bound that a type does not already give is DATA_IN's length (R54). -/

namespace Sys2Proof

/-- DATA_IN is a byte string of length 0 to 2^32-1 (R54). -/
abbrev dataFits (data : List Byte) : Prop := data.length < dataLimit

/-- The check of an instruction: its DATA_IN, where it uses one, can be carried (R54). ARG needs no check (R66). -/
def Instr.wf : Instr → Bool
  | .rbEnq data => decide (dataFits data)
  | .rbDeq _ => true
  | .rbPeek _ => true
  | .rbClr => true
  | .rbIdx _ => true
  | .rbLen => true
  | .rbLock => true
  | .rbUnlock => true
  | .hdDec _ chunk => decide (dataFits chunk)
  | .rxCmpen => true
  | .rxFeed chunk => decide (dataFits chunk)
  | .connRst => true

/-- A command the request port can carry (R54), whatever its opcode. -/
abbrev Command.wf (c : Command) : Prop := dataFits c.data

end Sys2Proof
end

