-- ==== Sys2Proof/Decode.lean ====
section
/-! DEFINITION. The command decoder of 30_encoding.md (R57 to R63), total on all 256 bytes, and the encoder written from the same opcode map. -/

namespace Sys2Proof

/-- What the decoder answers: a command, or the name of the reason there is none. -/
inductive Decoded where
  /-- one of the twelve commands (R58) -/
  | instr (i : Instr)
  /-- `cmd[7:4] ≠ 0` (R60) -/
  | reservedBits
  /-- `op` is 0x0, 0xD, 0xE or 0xF (R59) -/
  | reservedOpcode
  /-- DATA_IN of a command that uses it is longer than the port can carry (R54, log entry 12) -/
  | dataTooLong
  deriving DecidableEq, Repr

/-- `cmd[7:4]`, the reserved field of CMD8 (R57). -/
def rsvField (cmd : Byte) : BitVec 4 := cmd.extractLsb' 4 4

/-- `cmd[3:0]`, the opcode field of CMD8 (R57). -/
def opField (cmd : Byte) : BitVec 4 := cmd.extractLsb' 0 4

/-- A command that uses DATA_IN, where the port can carry it (R54). -/
def withData (data : List Byte) (i : Instr) : Decoded :=
  if dataFits data then .instr i else .dataTooLong

/-- The opcode map (R58). An operand the map marks "no" is dropped unread (R61). -/
def decodeOp (op : BitVec 4) (arg : Arg) (data : List Byte) : Decoded :=
  match op.toNat with
  | 0x1 => withData data (.rbEnq data)
  | 0x2 => .instr (.rbDeq arg)
  | 0x3 => .instr (.rbPeek arg)
  | 0x4 => .instr .rbClr
  | 0x5 => .instr (.rbIdx arg)
  | 0x6 => .instr .rbLen
  | 0x7 => .instr .rbLock
  | 0x8 => .instr .rbUnlock
  | 0x9 => withData data (.hdDec arg data)
  | 0xA => .instr .rxCmpen
  | 0xB => withData data (.rxFeed data)
  | 0xC => .instr .connRst
  | _ => .reservedOpcode

/-- R62: test `cmd[7:4] = 0`, then look up `cmd[3:0]`. -/
def decodeByte (cmd : Byte) (arg : Arg) (data : List Byte) : Decoded :=
  if rsvField cmd ≠ 0 then .reservedBits else decodeOp (opField cmd) arg data

/-- The decoder of a request. No mode changes how a byte decodes (R63). -/
def decode (c : Command) : Decoded :=
  match c with
  | ⟨cmd, arg, data⟩ => decodeByte cmd arg data

/-! The encoder. -/

/-- The opcode of a command (R58, column `op`). -/
def opcodeOf : Instr → BitVec 4
  | .rbEnq _ => 0x1
  | .rbDeq _ => 0x2
  | .rbPeek _ => 0x3
  | .rbClr => 0x4
  | .rbIdx _ => 0x5
  | .rbLen => 0x6
  | .rbLock => 0x7
  | .rbUnlock => 0x8
  | .hdDec _ _ => 0x9
  | .rxCmpen => 0xA
  | .rxFeed _ => 0xB
  | .connRst => 0xC

/-- The whole command byte (R58, column `byte`): rsv = 0b0000, then the opcode (R57). -/
def cmdByteOf : Instr → Byte
  | .rbEnq _ => 0x01
  | .rbDeq _ => 0x02
  | .rbPeek _ => 0x03
  | .rbClr => 0x04
  | .rbIdx _ => 0x05
  | .rbLen => 0x06
  | .rbLock => 0x07
  | .rbUnlock => 0x08
  | .hdDec _ _ => 0x09
  | .rxCmpen => 0x0A
  | .rxFeed _ => 0x0B
  | .connRst => 0x0C

/-- The ARG a command is issued with: 0 where it uses none (R64). -/
def argOf : Instr → Arg
  | .rbEnq _ => 0
  | .rbDeq maxLen => maxLen
  | .rbPeek maxLen => maxLen
  | .rbClr => 0
  | .rbIdx i => i
  | .rbLen => 0
  | .rbLock => 0
  | .rbUnlock => 0
  | .hdDec cap _ => cap
  | .rxCmpen => 0
  | .rxFeed _ => 0
  | .connRst => 0

/-- The DATA_IN a command is issued with: empty where it uses none (R64). -/
def dataOf : Instr → List Byte
  | .rbEnq data => data
  | .rbDeq _ => []
  | .rbPeek _ => []
  | .rbClr => []
  | .rbIdx _ => []
  | .rbLen => []
  | .rbLock => []
  | .rbUnlock => []
  | .hdDec _ chunk => chunk
  | .rxCmpen => []
  | .rxFeed chunk => chunk
  | .connRst => []

/-- The request record of a command, less its agent (R54, R58). -/
def encode (i : Instr) : Command := ⟨cmdByteOf i, argOf i, dataOf i⟩

/-- The request whose bits are `w`, numbered as spec/opcode_table.json numbers them: bits 7:0 are the command byte. A row
has 8 bits; bits 39:8, where a caller gives them, are ARG, and DATA_IN is empty (log entry 16). -/
def tableCommand (nbits w : Nat) : Command where
  cmd := BitVec.ofNat 8 (w % 2 ^ nbits)
  arg := BitVec.ofNat 32 (w % 2 ^ nbits / 256)
  data := []

/-- The instruction the decoder reads from an opcode-table word. -/
def decodeTableWord (nbits w : Nat) : Option Instr :=
  match decode (tableCommand nbits w) with
  | .instr i => some i
  | .reservedBits => none
  | .reservedOpcode => none
  | .dataTooLong => none

end Sys2Proof
end

