-- ==== Sys2Proof/Machine/State.lean ====
section
/-! DEFINITION. The state of CUO-HBD (10_state.md R15): RB, D, CTRL, LOCK and FLOG, beside them the two ports (R54, R55) and the instance's constant configuration (R7). All plain data. -/

namespace Sys2Proof.Machine

/-- The bytes of ring storage that have been written since it was last allocated: (address, byte) pairs in rising address
order. Every other byte of the array holds an unspecified value (R21), a free value: `storageByte`, log entry 9. -/
abbrev Memory := List Host.Cell

/-- The ring unit RB (R17 to R21), less its lock, which R15 keeps apart. The array of `capacity` storage bytes is `storage`,
the bytes written, over the free bytes of allocation number `allocation` (log entry 9). -/
structure Ring where
  capacity   : Nat
  head       : Nat
  tail       : Nat
  length     : Nat
  storage    : Memory
  allocation : Nat
  deriving DecidableEq, Repr

/-- `D.dstate` (R28). -/
inductive DState where
  | ready
  | faulted
  deriving DecidableEq, Repr

/-- The decoder unit D (R24 to R28). `bitPosition` is 0..8 (R24), `treeNode` a node index 0..255 (R27). -/
structure Decoder where
  bitPosition : Fin 9
  currentByte : Byte
  bitMask     : Byte
  treeNode    : Fin treeNodes
  dstate      : DState
  deriving DecidableEq, Repr

/-- The fault codes of R127, each a status of a command that completes; none of them stops the block (R131). -/
inductive FaultCode where
  | illegalCommand
  | agentNotPermitted
  | lockReentry
  | unlockNotOwner
  | indexOutOfRange
  | capacityExceeded
  | decompressOverflow
  | decoderFaulted
  deriving DecidableEq, Repr

/-- The "info recorded" column of R127. -/
inductive FaultInfo where
  /-- IllegalCommand: the command byte -/
  | commandByte (cmd : Byte)
  /-- AgentNotPermitted: the opcode -/
  | opcode (op : BitVec 4)
  /-- LockReentry: the agent -/
  | agent (a : Agent)
  /-- UnlockNotOwner: the agent and `RB.lockOwner` -/
  | agentAndOwner (a : Agent) (owner : Option Agent)
  /-- IndexOutOfRange: i and RB.length -/
  | indexAndLength (i length : Nat)
  /-- CapacityExceeded: the needed newCap -/
  | neededCapacity (newCap : Nat)
  /-- DecompressOverflow: cap, and how many bytes were produced -/
  | capAndProduced (cap produced : Nat)
  /-- DecoderFaulted: none -/
  | nothing
  deriving DecidableEq, Repr

/-- A record of FLOG (R33): issuer, whole command byte, fault code, info. -/
structure FaultRecord where
  agent : Agent
  cmd   : Byte
  code  : FaultCode
  info  : FaultInfo
  deriving DecidableEq, Repr

/-- A response record (R55) and the agent it answers. `value` is widened to a natural number (R56, log entry 8). -/
structure Response where
  agent   : Agent
  status  : Byte
  value   : Nat
  dataOut : List Byte
  more    : Bool
  deriving DecidableEq, Repr

/-- The state of one instance. -/
structure State where
  /-- the instance's constants (R7, R30), never written (log entry 1) -/
  cfg        : Config
  /-- RB (R17 to R21) -/
  rb         : Ring
  /-- D (R24 to R28) -/
  dec        : Decoder
  /-- CTRL.COMPRESS_EN (R31) -/
  compressEn : Bool
  /-- LOCK, `RB.lockOwner` (R32) -/
  lockOwner  : Option Agent
  /-- FLOG, oldest record first (R33) -/
  flog       : List FaultRecord
  /-- FLOG.FAULT_SEEN (R33, R131) -/
  faultSeen  : Bool
  /-- the `agent` field of the request being served (R54, log entry 14) -/
  issuer     : Agent
  /-- requests of A0 not yet taken, oldest first (R54, log entry 3) -/
  queueA0    : List Command
  /-- requests of A1 not yet taken, oldest first (R54, log entry 3) -/
  queueA1    : List Command
  /-- every response given, oldest first (R55, log entry 7) -/
  responses  : List Response
  /-- who is served at the coming choices between two agents that could be (R48, log entry 4) -/
  turns      : List Agent
  /-- how many free values have been drawn (log entry 11) -/
  draws      : Nat
  deriving DecidableEq, Repr

/-- Why the model stops. No fault of the spec is here: those complete with a status (R131). -/
inductive Fault where
  /-- A read of ring storage at an address that is not below the capacity (R37: no such byte). Raised by a command that reads
  live bytes only where the capacity is 0 (R17: never), so in no state a run reaches. Safe. -/
  | noSuchAddress (address : Nat)
  deriving DecidableEq, Repr

/-- Why the model gives a step no meaning. -/
inductive Refusal where
  /-- An instruction whose arm has no meaning yet. No arm is left so. Safe. -/
  | notModelled (mnemonic : String)
  /-- A queued request whose DATA_IN is longer than the port can carry (R54: at most 2^32-1 bytes), so no request of the
  hardware. Raised by the step that would take it. Safe. -/
  | requestTooLong (length : Nat)
  deriving DecidableEq, Repr

/-- RB after reset: INIT_CAPACITY bytes, every one unspecified, so the free bytes of allocation 0 (log entry 9);
cursors and length 0 (R34, R144). -/
def Ring.fresh (c : Config) : Ring where
  capacity := c.initCapacity
  head := 0
  tail := 0
  length := 0
  storage := []
  allocation := 0

/-- D after power-on reset (R34, R144). `currentByte` and `bitMask` are unspecified there and unobservable (R146): 0 is
this model's choice (log entry 10, DESIGN CHOICE). -/
def Decoder.fresh : Decoder where
  bitPosition := 8
  currentByte := 0
  bitMask := 0
  treeNode := 0
  dstate := .ready

/-- Power-on reset of an instance with configuration `c` (R34, R144, R147): one atomic transition, the ports empty. -/
def State.powerOn (c : Config) : State where
  cfg := c
  rb := Ring.fresh c
  dec := Decoder.fresh
  compressEn := false
  lockOwner := none
  flog := []
  faultSeen := false
  issuer := .A0
  queueA0 := []
  queueA1 := []
  responses := []
  turns := []
  draws := 0

/-- The installed instance right after power-on reset. -/
def State.reset : State := State.powerOn Config.installed

end Sys2Proof.Machine
end

