-- ==== Sys2Proof/Machine/Flags.lean ====
section
/-! DEFINITION. The flags: status codes (60_exceptions.md R127), the response bit `more` (R55, R95), CTRL.COMPRESS_EN (R31), FLOG.FAULT_SEEN (R33, R131). -/

namespace Sys2Proof.Machine

/-- Status 0x00 (R126). -/
def okStatus : Byte := 0x00

/-- The fault codes of R127. -/
def faultByte : FaultCode → Byte
  | .illegalCommand => 0x01
  | .agentNotPermitted => 0x02
  | .lockReentry => 0x03
  | .unlockNotOwner => 0x04
  | .indexOutOfRange => 0x05
  | .capacityExceeded => 0x06
  | .decompressOverflow => 0x07
  | .decoderFaulted => 0x08

/-- `more` of a decoder call that consumed its whole input (R95). -/
def moreAfterDecode : Bool := true

/-- `more` of every other completion (R55, R95). -/
def noMore : Bool := false

/-- COMPRESS_EN <- 1 (R120). -/
def setCompress (s : State) : State := { s with compressEn := true }

/-- COMPRESS_EN <- 0 (R122). -/
def clearCompress (s : State) : State := { s with compressEn := false }

/-- FAULT_SEEN <- 1 (R131). -/
def setFaultSeen (s : State) : State := { s with faultSeen := true }

end Sys2Proof.Machine
end

