-- ==== Sys2Proof/Machine/Operands.lean ====
section
/-! DEFINITION. The operand forms: ARG as a count, an index or a capacity (30_encoding.md R56, R66), and which operands each command uses (R58, R61). -/

namespace Sys2Proof.Machine

/-- ARG is an unsigned whole number (R56). -/
def argNat (arg : Arg) : Nat := arg.toNat

/-- The count of RB_DEQ: ARG clamped to the live bytes (R79). -/
def dequeueCount (maxLen : Arg) (rb : Ring) : Nat := min (argNat maxLen) rb.length

/-- The count of RB_PEEK: ARG clamped to the live bytes and to the end of storage, so it never wraps (R80). -/
def peekCount (maxLen : Arg) (rb : Ring) : Nat :=
  min (argNat maxLen) (min rb.length (rb.capacity - rb.head))

/-- The index of RB_IDX is in range: `i < RB.length` (R81). -/
def indexInRange (i : Arg) (rb : Ring) : Bool := decide (argNat i < rb.length)

/-- Column "uses ARG" of the opcode map (R58). -/
def usesArg : Instr → Bool
  | .rbEnq _ => false
  | .rbDeq _ => true
  | .rbPeek _ => true
  | .rbClr => false
  | .rbIdx _ => true
  | .rbLen => false
  | .rbLock => false
  | .rbUnlock => false
  | .hdDec _ _ => true
  | .rxCmpen => false
  | .rxFeed _ => false
  | .connRst => false

/-- Column "uses DATA_IN" of the opcode map (R58). -/
def usesData : Instr → Bool
  | .rbEnq _ => true
  | .rbDeq _ => false
  | .rbPeek _ => false
  | .rbClr => false
  | .rbIdx _ => false
  | .rbLen => false
  | .rbLock => false
  | .rbUnlock => false
  | .hdDec _ _ => true
  | .rxCmpen => false
  | .rxFeed _ => true
  | .connRst => false

/-! The pseudo-commands of R65, each the one real command it stands for. -/

/-- `RB_DRAIN`: dequeue every live byte. -/
def rbDrain : Instr := .rbDeq 0xFFFFFFFF

/-- `RB_PEEKID`: read the identifier byte of the next frame. -/
def rbPeekId : Instr := .rbIdx 0

/-- `HD_DECSTAGE`: a decoder call with the capacity RX_FEED uses; no command where STAGE_CAP does not fit ARG (R66). -/
def hdDecStage (c : Config) (chunk : List Byte) : Option Instr :=
  if c.stageCap < 2 ^ 32 then some (.hdDec (BitVec.ofNat 32 c.stageCap) chunk) else none

end Sys2Proof.Machine
end

