-- ==== Sys2Proof/Machine/Ops.lean ====
section
/-! DEFINITION. The named operations: storage bytes (20_memory.md R40), the ring's shared procedures (40_ring_buffer.md R69 to R74), responses (R55), and taking a fault (60_exceptions.md R131). -/

namespace Sys2Proof.Machine

/-- The three outcomes of a step, for this machine. -/
abbrev Result := Host.Outcome State Fault Refusal

/-! ### Storage bytes -/

/-- The canonical form of a memory: addresses strictly rising, one entry for each address written. An unlisted address reads
as a free value, to which no listed byte can be compared, so no entry is left out for being equal to it (log entry 9). -/
abbrev Memory.wf (m : Memory) : Prop := m.Pairwise (fun x y => x.1 < y.1)

/-- The byte at an address, or none where nothing has written one. -/
def Memory.read : Memory → Nat → Option Byte
  | [], _ => none
  | (x, v) :: m, a => if x = a then some v else Memory.read m a

/-- Write one byte, keeping the addresses in order. -/
def Memory.write : Memory → Nat → Byte → Memory
  | [], a, b => [(a, b)]
  | (x, v) :: m, a, b =>
    if a < x then (a, b) :: (x, v) :: m
    else if a = x then (a, b) :: m
    else (x, v) :: Memory.write m a b

/-- Write bytes at consecutive addresses mod `cap`, one access each (R40, R42). -/
def Memory.writeBytes : Memory → (cap start : Nat) → List Byte → Memory
  | m, _, _, [] => m
  | m, cap, start, b :: bs => Memory.writeBytes (Memory.write m (start % cap) b) cap (start + 1) bs

/-- The byte `RB.storage` holds at an address (R21): the one last written there, or, where none has been since the storage
was allocated, a free value (log entry 9). -/
def storageByte (rb : Ring) (a : Nat) : Byte := (rb.storage.read a).getD (Config.freeStorageByte rb.allocation a)

/-- `MemRead(a, 1)` for `0 <= a < RB.capacity` (R12, R40): every byte of the array can be read. -/
def memRead (rb : Ring) (a : Nat) : Except Fault Byte :=
  if a < rb.capacity then .ok (storageByte rb a) else .error (.noSuchAddress a)

/-- `array of n bytes, every byte unspecified` (R69, R122) and n its capacity, cursors and length 0: the free bytes of the
allocation after this one, nothing written (log entry 9). -/
def reallocate (rb : Ring) (n : Nat) : Ring where
  capacity := n
  head := 0
  tail := 0
  length := 0
  storage := []
  allocation := rb.allocation + 1

/-- The bytes at a list of addresses, in order. -/
def readAll (rb : Ring) : List Nat → Except Fault (List Byte)
  | [] => .ok []
  | a :: rest =>
    match memRead rb a with
    | .error f => .error f
    | .ok b =>
      match readAll rb rest with
      | .error f => .error f
      | .ok bs => .ok (b :: bs)

/-! ### The ring's shared procedures -/

/-- The address of the k-th oldest live byte (R73). -/
def liveAddress (rb : Ring) (k : Nat) : Nat := (rb.head + k) % rb.capacity

/-- `Live(k)` (R73). -/
def live (rb : Ring) (k : Nat) : Except Fault Byte := memRead rb (liveAddress rb k)

/-- `[ Live(k) for k in 0 .. n-1 ]` (R79). -/
def readLive (rb : Ring) (n : Nat) : Except Fault (List Byte) :=
  readAll rb ((List.range n).map (liveAddress rb))

/-- `[ MemRead(RB.head + k, 1) for k in 0 .. n-1 ]`, which never wraps (R80). -/
def readSegment (rb : Ring) (n : Nat) : Except Fault (List Byte) :=
  readAll rb ((List.range n).map (fun k => rb.head + k))

/-- `ceil_div(a, b)`: the least q with q*b >= a (R11). -/
def ceilDiv (a b : Nat) : Nat := (a + (b - 1)) / b

/-- The capacity growth takes for a need of that many bytes (R70, C10). -/
def grownCapacity (need : Nat) : Nat := ceilDiv need growQuantum * growQuantum

/-- `Grow(newCap)` (R69): fresh storage, the live bytes moved to addresses 0 onward. -/
def grow (rb : Ring) (newCap : Nat) : Except Fault Ring :=
  match readLive rb rb.length with
  | .error f => .error f
  | .ok bytes =>
    .ok { reallocate rb newCap with
          tail := rb.length, length := rb.length, storage := Memory.writeBytes [] newCap 0 bytes }

/-- What making room for an enqueue can come to (R70, R71). -/
inductive Room where
  /-- the ring, grown where it had to be -/
  | room (rb : Ring)
  /-- growth would pass MAX_CAPACITY: nothing is written -/
  | exceeded (newCap : Nat)
  /-- the model stops at a storage read -/
  | stopped (f : Fault)
  deriving DecidableEq, Repr

/-- An enqueue of n bytes grows the ring exactly when n > 0 and `RB.length + n > RB.capacity` (R70). -/
def mustGrow (rb : Ring) (n : Nat) : Bool := decide (0 < n) && decide (rb.capacity < rb.length + n)

/-- Room for n bytes (R70, R71; the same lines of R77 and R121). -/
def makeRoom (c : Config) (rb : Ring) (n : Nat) : Room :=
  if mustGrow rb n then
    if c.exceedsMax (grownCapacity (rb.length + n)) then .exceeded (grownCapacity (rb.length + n))
    else
      match grow rb (grownCapacity (rb.length + n)) with
      | .error f => .stopped f
      | .ok rb' => .room rb'
  else .room rb

/-- `Append(data)` (R72). -/
def append (rb : Ring) (data : List Byte) : Ring :=
  { rb with
    storage := Memory.writeBytes rb.storage rb.capacity rb.tail data
    tail := (rb.tail + data.length) % rb.capacity
    length := rb.length + data.length }

/-- Head, tail and length 0, nothing else changed (R78). -/
def clearRing (rb : Ring) : Ring := { rb with head := 0, tail := 0, length := 0 }

/-- Dropping the `cnt` oldest live bytes (R79), normalised when none is left (R74). -/
def consume (rb : Ring) (cnt : Nat) : Ring :=
  if cnt = 0 then rb
  else if rb.length - cnt = 0 then clearRing rb
  else { rb with head := (rb.head + cnt) % rb.capacity, length := rb.length - cnt }

/-! ### Writing one unit of the state -/

/-- RB. -/
def setRing (rb : Ring) (s : State) : State := { s with rb := rb }

/-- D. -/
def setDecoder (d : Decoder) (s : State) : State := { s with dec := d }

/-- `RB.lockOwner`. -/
def setLock (owner : Option Agent) (s : State) : State := { s with lockOwner := owner }

/-- One more free value has been drawn (log entry 11). -/
def drawn (s : State) : State := { s with draws := s.draws + 1 }

/-! ### Completing a command -/

/-- The response record of the command being served leaves on the response port (R55). -/
def respond (status : Byte) (value : Nat) (dataOut : List Byte) (more : Bool) (s : State) : State :=
  { s with responses := s.responses ++ [⟨s.issuer, status, value, dataOut, more⟩] }

/-- `return (value, data, more)`: completion with status OK (R12, R126). -/
def finish (value : Nat) (dataOut : List Byte) (more : Bool) (s : State) : State :=
  respond okStatus value dataOut more s

/-- Step 1 of fault recording: the record joins FLOG and FAULT_SEEN is set (R131). -/
def recordFault (cmd : Byte) (code : FaultCode) (info : FaultInfo) (s : State) : State :=
  setFaultSeen { s with flog := s.flog ++ [⟨s.issuer, cmd, code, info⟩] }

/-- Taking a fault (R131), the one operation every fault goes through: the record, then the response with status F and
the given value and DATA_OUT, `more` = 0. Nothing is saved elsewhere and control goes nowhere. There is no trap return
beside it, because there is no handler (R136): recovery is a command, `resetConnection` below. -/
def takeFault (cmd : Byte) (code : FaultCode) (info : FaultInfo) (value : Nat) (dataOut : List Byte) (s : State) : State :=
  respond (faultByte code) value dataOut noMore (recordFault cmd code info s)

/-- A precise fault: value 0 and empty DATA_OUT (R132). -/
def takePrecise (cmd : Byte) (code : FaultCode) (info : FaultInfo) (s : State) : State :=
  takeFault cmd code info 0 [] s

/-- The connection-scoped fields back to their reset values (R36, R122, R145). `currentByte` and `bitMask` become
unspecified: free values (log entry 11). `RB.lockOwner` and FLOG stay. -/
def resetConnection (s : State) : State :=
  clearCompress (drawn (setDecoder
    { bitPosition := 8, currentByte := Config.freeCurrentByte s.draws, bitMask := Config.freeBitMask s.draws,
      treeNode := 0, dstate := .ready }
    (setRing (reallocate s.rb s.cfg.initCapacity) s)))

end Sys2Proof.Machine
end

