-- ==== Sys2Proof/Machine/Checks.lean ====
section
/-! DEFINITION. The common checks of a decoded command, in the order of 60_exceptions.md R130: permission (R129, R138), then the hold rule (20_memory.md R49), then the command's own rule. -/

namespace Sys2Proof.Machine

/-- The commands only A0 may issue (R119, R138). -/
def ownerOnly : Instr → Bool
  | .rbEnq _ => false
  | .rbDeq _ => false
  | .rbPeek _ => false
  | .rbClr => false
  | .rbIdx _ => false
  | .rbLen => false
  | .rbLock => false
  | .rbUnlock => false
  | .hdDec _ _ => true
  | .rxCmpen => true
  | .rxFeed _ => true
  | .connRst => true

/-- The permission table (R138). No command changes it (R139). -/
def permitted (a : Agent) (i : Instr) : Bool :=
  match a with
  | .A0 => true
  | .A1 => !ownerOnly i

/-- `LOCKED_OPS` (R49). -/
def lockedOp : Instr → Bool
  | .rbEnq _ => true
  | .rbDeq _ => true
  | .rbPeek _ => true
  | .rbClr => true
  | .rbIdx _ => true
  | .rbLen => true
  | .rbLock => true
  | .rbUnlock => false
  | .hdDec _ _ => false
  | .rxCmpen => false
  | .rxFeed _ => true
  | .connRst => true

/-- The hold rule (R49): the opcode is in LOCKED_OPS and the other agent owns the lock. -/
def held (a : Agent) (i : Instr) (owner : Option Agent) : Bool :=
  lockedOp i &&
    match owner with
    | none => false
    | some b => decide (b ≠ a)

/-- Steps 2 to 4 of R130. A held command has no step: it writes nothing, is not logged and gives no response (R49, R134,
log entry 6). -/
def guarded (i : Instr) (rule : State → Result) (s : State) : Result :=
  if permitted s.issuer i then
    if held s.issuer i s.lockOwner then .next s else rule s
  else .next (takePrecise (cmdByteOf i) .agentNotPermitted (.opcode (opcodeOf i)) s)

end Sys2Proof.Machine
end

