-- ==== Sys2Proof/Machine/Lock.lean ====
section
/-! DEFINITION. The mutex commands RB_LOCK and RB_UNLOCK (40_ring_buffer.md R83, R84). -/

namespace Sys2Proof.Machine

/-- RB_LOCK (R83): not re-entrant; the other agent's lock has already held the command. -/
def execRbLock (s : State) : Result :=
  guarded .rbLock (fun s =>
    if s.lockOwner = some s.issuer then
      .next (takePrecise (cmdByteOf .rbLock) .lockReentry (.agent s.issuer) s)
    else .next (finish 0 [] noMore (setLock (some s.issuer) s))) s

/-- RB_UNLOCK (R84). -/
def execRbUnlock (s : State) : Result :=
  guarded .rbUnlock (fun s =>
    if s.lockOwner = some s.issuer then .next (finish 0 [] noMore (setLock none s))
    else
      .next (takePrecise (cmdByteOf .rbUnlock) .unlockNotOwner (.agentAndOwner s.issuer s.lockOwner) s)) s

end Sys2Proof.Machine
end

