-- ==== Sys2Proof/Machine/Decoder.lean ====
section
/-! DEFINITION. The bit decompressor (41_decompressor.md): tree interpretation, the one-bit step, the Decompress procedure and HD_DEC. -/

namespace Sys2Proof.Machine

/-- The kinds of tree entry (R87). -/
inductive Node where
  | sentinel
  | leaf (b : Byte)
  | child (n : Fin treeNodes)
  deriving DecidableEq, Repr

/-- `Classify(v)` (R87), the sentinel tested before the leaf (R88). -/
def classify (v : Int) : Node :=
  if v = Sys2Proof.sentinel then .sentinel
  else if v ≤ 0 then .leaf (BitVec.ofInt 8 (-v))
  else .child (Fin.ofNat treeNodes v.toNat)

/-- `TREE[2*n + b]` (R30, R89): the left slot on bit 0, the right slot on bit 1. -/
def treeEntry (t : Tree) (n : Fin treeNodes) (b : Bool) : Int :=
  (t[2 * n.val + b.toNat]'(by have := n.isLt; have := b.toNat_le; simp only [treeNodes, treeSlots] at *; omega)).toInt

/-- The next bit of the current byte: the one `bitMask` selects (R26, R99). -/
def nextBit (d : Decoder) : Bool := d.currentByte &&& d.bitMask != 0

/-- `FetchByte` (R98). -/
def fetchByte (b : Byte) (d : Decoder) : Decoder :=
  { d with currentByte := b, bitPosition := 0, bitMask := 0x80 }

/-- The cursor moves past one bit (R99). -/
def shiftCursor (d : Decoder) : Decoder :=
  { d with bitMask := d.bitMask >>> 1, bitPosition := d.bitPosition + 1 }

/-- `BitStep(out, cap)` (R99): none is OVERFLOW, else the decoder and the output after the bit. -/
def bitStep (t : Tree) (cap : Nat) (d : Decoder) (out : List Byte) : Option (Decoder × List Byte) :=
  match classify (treeEntry t d.treeNode (nextBit d)) with
  | .sentinel => some ({ shiftCursor d with bitPosition := 8, treeNode := 0 }, out)
  | .leaf x =>
    if out.length = cap then none
    else some ({ shiftCursor d with treeNode := 0 }, out ++ [x])
  | .child n => some ({ shiftCursor d with treeNode := n }, out)

/-- What a decoder loop comes to: all input consumed, or a symbol that found the output full (R95). -/
inductive Decoding where
  | consumed (d : Decoder) (out : List Byte)
  | overflow (out : List Byte)
  deriving DecidableEq, Repr

/-- Bit steps until the current byte is used up (`bitPosition` = 8), at most `fuel` of them. -/
def drainByte (t : Tree) (cap : Nat) : (fuel : Nat) → Decoder → List Byte → Decoding
  | 0, d, out => .consumed d out
  | fuel + 1, d, out =>
    if d.bitPosition = 8 then .consumed d out
    else
      match bitStep t cap d out with
      | none => .overflow out
      | some (d', out') => drainByte t cap fuel d' out'

/-- The loop of R100. A byte has at most 8 unread bits, so 8 bit steps use it up. -/
def decodeLoop (t : Tree) (cap : Nat) : List Byte → Decoder → List Byte → Decoding
  | [], d, out => drainByte t cap 8 d out
  | b :: rest, d, out =>
    match drainByte t cap 8 d out with
    | .overflow o => .overflow o
    | .consumed d' out' => decodeLoop t cap rest (fetchByte b d') out'

/-- What `Decompress(in, cap)` comes to (R100). -/
inductive Decompressed where
  /-- `D.dstate` was FAULTED on entry: nothing changes -/
  | faulted
  /-- `(out, 1, none)` and D after it -/
  | done (d : Decoder) (out : List Byte)
  /-- `(out, 0, DecompressOverflow)` -/
  | overflow (out : List Byte)
  deriving DecidableEq, Repr

/-- `Decompress(in, cap)` (R100). -/
def decompress (t : Tree) (input : List Byte) (cap : Nat) (d : Decoder) : Decompressed :=
  match d.dstate with
  | .faulted => .faulted
  | .ready =>
    match decodeLoop t cap input d [] with
    | .consumed d' out => .done d' out
    | .overflow out => .overflow out

/-- D after an overflow (R100, R133): FAULTED, and every cursor field unspecified, so a free value (log entry 11). -/
def overflowDecoder (s : State) : State :=
  drawn (setDecoder
    { bitPosition := Config.freeBitPosition s.draws, currentByte := Config.freeCurrentByte s.draws,
      bitMask := Config.freeBitMask s.draws, treeNode := Config.freeTreeNode s.draws, dstate := .faulted } s)

/-- HD_DEC (R101). On overflow the response carries what was decoded (R133). -/
def execHdDec (cap : Arg) (chunk : List Byte) (s : State) : Result :=
  guarded (.hdDec cap chunk) (fun s =>
    match decompress s.cfg.tree chunk (argNat cap) s.dec with
    | .faulted => .next (takePrecise (cmdByteOf (.hdDec cap chunk)) .decoderFaulted .nothing s)
    | .overflow out =>
      .next (takeFault (cmdByteOf (.hdDec cap chunk)) .decompressOverflow (.capAndProduced (argNat cap) out.length)
        out.length out (overflowDecoder s))
    | .done d out => .next (finish out.length out moreAfterDecode (setDecoder d s))) s

end Sys2Proof.Machine
end

