-- ==== Sys2Proof/Machine/Receive.lean ====
section
/-! DEFINITION. The receive path: RX_CMPEN, RX_FEED and CONN_RST (42_receive_path.md R118 to R122). -/

namespace Sys2Proof.Machine

/-- RX_CMPEN (R120). -/
def execRxCmpen (s : State) : Result :=
  guarded .rxCmpen (fun s => .next (finish 0 [] noMore (setCompress s))) s

/-- The second half of RX_FEED (R121): enqueue the payload and let the decoder's advance stand, or, where growth would
pass MAX_CAPACITY, neither (R124: D is then the saved one). -/
def storePayload (chunk payload : List Byte) (d : Decoder) (more : Bool) (s : State) : Result :=
  match makeRoom s.cfg s.rb payload.length with
  | .exceeded newCap =>
    .next (takePrecise (cmdByteOf (.rxFeed chunk)) .capacityExceeded (.neededCapacity newCap) s)
  | .stopped f => .fault f
  | .room rb => .next (finish payload.length [] more (setDecoder d (setRing (append rb payload) s)))

/-- RX_FEED (R121). COMPRESS_EN is sampled when the command starts (R125). -/
def execRxFeed (chunk : List Byte) (s : State) : Result :=
  guarded (.rxFeed chunk) (fun s =>
    if s.compressEn then
      match decompress s.cfg.tree chunk s.cfg.stageCap s.dec with
      | .faulted => .next (takePrecise (cmdByteOf (.rxFeed chunk)) .decoderFaulted .nothing s)
      | .overflow out =>
        .next (takeFault (cmdByteOf (.rxFeed chunk)) .decompressOverflow
          (.capAndProduced s.cfg.stageCap out.length) 0 [] (overflowDecoder s))
      | .done d out => storePayload chunk out d moreAfterDecode s
    else storePayload chunk chunk s.dec noMore s) s

/-- CONN_RST (R122). -/
def execConnRst (s : State) : Result :=
  guarded .connRst (fun s => .next (finish 0 [] noMore (resetConnection s))) s

end Sys2Proof.Machine
end

