-- ==== Sys2Proof/Machine/Ring.lean ====
section
/-! DEFINITION. The ring buffer commands RB_ENQ, RB_DEQ, RB_PEEK, RB_CLR, RB_IDX and RB_LEN (40_ring_buffer.md R77 to R82). -/

namespace Sys2Proof.Machine

/-- RB_ENQ (R77). -/
def execRbEnq (data : List Byte) (s : State) : Result :=
  guarded (.rbEnq data) (fun s =>
    if data.length = 0 then .next (finish 0 [] noMore s)
    else
      match makeRoom s.cfg s.rb data.length with
      | .exceeded newCap =>
        .next (takePrecise (cmdByteOf (.rbEnq data)) .capacityExceeded (.neededCapacity newCap) s)
      | .stopped f => .fault f
      | .room rb => .next (finish data.length [] noMore (setRing (append rb data) s))) s

/-- RB_DEQ (R79). -/
def execRbDeq (maxLen : Arg) (s : State) : Result :=
  guarded (.rbDeq maxLen) (fun s =>
    match readLive s.rb (dequeueCount maxLen s.rb) with
    | .error f => .fault f
    | .ok out =>
      .next (finish (dequeueCount maxLen s.rb) out noMore (setRing (consume s.rb (dequeueCount maxLen s.rb)) s))) s

/-- RB_PEEK (R80): no state changes. -/
def execRbPeek (maxLen : Arg) (s : State) : Result :=
  guarded (.rbPeek maxLen) (fun s =>
    match readSegment s.rb (peekCount maxLen s.rb) with
    | .error f => .fault f
    | .ok out => .next (finish (peekCount maxLen s.rb) out noMore s)) s

/-- RB_CLR (R78). -/
def execRbClr (s : State) : Result :=
  guarded .rbClr (fun s => .next (finish 0 [] noMore (setRing (clearRing s.rb) s))) s

/-- RB_IDX (R81, C3): out of range is a fault, never a read. -/
def execRbIdx (i : Arg) (s : State) : Result :=
  guarded (.rbIdx i) (fun s =>
    if indexInRange i s.rb then
      match live s.rb (argNat i) with
      | .error f => .fault f
      | .ok b => .next (finish b.toNat [] noMore s)
    else
      .next (takePrecise (cmdByteOf (.rbIdx i)) .indexOutOfRange (.indexAndLength (argNat i) s.rb.length) s)) s

/-- RB_LEN (R82). -/
def execRbLen (s : State) : Result :=
  guarded .rbLen (fun s => .next (finish s.rb.length [] noMore s)) s

end Sys2Proof.Machine
end

