-- ==== Sys2Proof/Machine/Dispatch.lean ====
section
/-! DEFINITION. One arm per command: its meaning, issued by the agent in `State.issuer`. -/

namespace Sys2Proof.Machine

def exec (i : Instr) (s : State) : Host.Outcome State Fault Refusal :=
  match i with
  | .rbEnq data => Sys2Proof.Machine.execRbEnq data s
  | .rbDeq maxLen => Sys2Proof.Machine.execRbDeq maxLen s
  | .rbPeek maxLen => Sys2Proof.Machine.execRbPeek maxLen s
  | .rbClr => Sys2Proof.Machine.execRbClr s
  | .rbIdx n => Sys2Proof.Machine.execRbIdx n s
  | .rbLen => Sys2Proof.Machine.execRbLen s
  | .rbLock => Sys2Proof.Machine.execRbLock s
  | .rbUnlock => Sys2Proof.Machine.execRbUnlock s
  | .hdDec cap chunk => Sys2Proof.Machine.execHdDec cap chunk s
  | .rxCmpen => Sys2Proof.Machine.execRxCmpen s
  | .rxFeed chunk => Sys2Proof.Machine.execRxFeed chunk s
  | .connRst => Sys2Proof.Machine.execConnRst s

end Sys2Proof.Machine
end

