-- ==== Sys2Proof/Machine/Port.lean ====
section
/-! DEFINITION. The request port (30_encoding.md R54) and the order of service (20_memory.md R48, R49): which agent's oldest request is taken next, and what becomes of it. -/

namespace Sys2Proof.Machine

/-- An agent's requests not yet taken, oldest first. -/
def queueOf (s : State) (a : Agent) : List Command :=
  match a with
  | .A0 => s.queueA0
  | .A1 => s.queueA1

/-- Write an agent's queue. -/
def setQueue (s : State) (a : Agent) (q : List Command) : State :=
  match a with
  | .A0 => { s with queueA0 := q }
  | .A1 => { s with queueA1 := q }

/-- The outside world: an agent issues a request, which joins the end of its stream (R48, R54). -/
def submit (a : Agent) (c : Command) (s : State) : State := setQueue s a (queueOf s a ++ [c])

/-- The request of agent `a` is held (R49), the decode and permission checks coming first (R130). -/
def requestHeld (a : Agent) (c : Command) (owner : Option Agent) : Bool :=
  match decode c with
  | .instr i => permitted a i && held a i owner
  | .reservedBits => false
  | .reservedOpcode => false
  | .dataTooLong => false

/-- Agent `a` has a request and it is not held, so `a` can be served. -/
def ready (s : State) (a : Agent) : Bool :=
  match queueOf s a with
  | [] => false
  | c :: _ => !requestHeld a c s.lockOwner

/-- Both agents could be served, so the order is not fixed (R48). -/
def contended (s : State) : Bool := ready s .A0 && ready s .A1

/-- Who is served at such a choice: what State lists, then a free value (log entry 4). -/
def nextTurn (s : State) : Agent :=
  match s.turns with
  | a :: _ => a
  | [] => Config.freeTurn s.draws

/-- The agent served next, or none where no agent has a request that is not held. -/
def arbitrate (s : State) : Option Agent :=
  match ready s .A0, ready s .A1 with
  | false, false => none
  | true, false => some .A0
  | false, true => some .A1
  | true, true => some (nextTurn s)

/-- A choice between two agents uses up one turn, or one free value. -/
def spendTurn (s : State) : State :=
  if contended s then
    match s.turns with
    | _ :: rest => { s with turns := rest }
    | [] => drawn s
  else s

/-- The block takes agent `a`'s oldest request: it leaves the queue and its `agent` field is latched (R54). -/
def accept (s : State) (a : Agent) : State :=
  { setQueue (spendTurn s) a (queueOf s a).tail with issuer := a }

/-- Step 1 of R130 and what follows it, for a request that has been taken: an illegal byte faults (R128), a command runs. -/
def serve (c : Command) (s : State) : Result :=
  match decode c with
  | .instr i => exec i s
  | .reservedBits => .next (takePrecise c.cmd .illegalCommand (.commandByte c.cmd) s)
  | .reservedOpcode => .next (takePrecise c.cmd .illegalCommand (.commandByte c.cmd) s)
  | .dataTooLong => .refused (.requestTooLong c.data.length)

/-- Put a request in front of A0's stream and, where A1 could be served too, the choice that serves A0 (log entry 15). -/
def placeNext (s : State) (c : Command) : State :=
  { s with
    queueA0 := c :: s.queueA0
    turns := if ready s .A1 then .A0 :: s.turns else s.turns }

end Sys2Proof.Machine
end

