-- ==== Sys2Proof/Machine/Step.lean ====
section
/-! DEFINITION. One step of the block: one command, or a step in which no agent can be served (20_memory.md R44, R48; 70_reset_and_hazards.md R150). -/

namespace Sys2Proof.Machine

/-- One step. With no request that is not held, the block waits: nothing changes (R47, R50, R150: a hang, not a stop; log
entry 5). Otherwise the chosen agent's oldest request is taken and served. -/
def step (s : State) : Host.Outcome State Fault Refusal :=
  match arbitrate s with
  | none => .next s
  | some a =>
    match queueOf s a with
    | [] => .next s
    | c :: _ => serve c (accept s a)

/-- `s` with the opcode-table word as the next request the block takes: A0 issues it, in front of what A0 has waiting. -/
def State.withFetchWord (s : State) (nbits w : Nat) : State := placeNext s (tableCommand nbits w)

end Sys2Proof.Machine
end

