-- ==== Sys2Proof/Machine/Assembler.lean ====
section
/-! DEFINITION. The assembler syntax of 30_encoding.md R64 to R66: one line of text to one request record. Lexical detail the rules leave open is in log entry 19. -/

namespace Sys2Proof.Machine

/-- Why a line assembles to nothing. -/
inductive AsmError where
  /-- the line has not the shape of R64 -/
  | malformed
  /-- the agent before the colon is neither A0 nor A1 (R64) -/
  | unknownAgent
  /-- the mnemonic is in neither R58 nor R65 -/
  | unknownMnemonic
  /-- ARG or DATA is missing where the opcode uses it, or written where it does not (R64) -/
  | wrongOperands
  /-- not a decimal or `0x` hexadecimal number (R64) -/
  | badNumber
  /-- a value that does not fit in 32 bits, or a byte value that does not fit in 8 (R66) -/
  | outOfRange
  deriving DecidableEq, Repr

/-- The tokens of a line. -/
inductive Token where
  | word (cs : List Char)
  | colon
  | openBracket
  | closeBracket
  | comma
  | other (c : Char)
  deriving DecidableEq, Repr

/-- Letters, digits and `_` make up words. -/
def isWordChar (c : Char) : Bool := c.isAlphanum || c == '_'

/-- The word read so far (held in reverse), if any. -/
def endWord (acc : List Char) : List Token :=
  match acc with
  | [] => []
  | c :: cs => [.word (c :: cs).reverse]

/-- The token of a character that is in no word; blanks have none. -/
def punctuation (c : Char) : List Token :=
  if c = ':' then [.colon]
  else if c = '[' then [.openBracket]
  else if c = ']' then [.closeBracket]
  else if c = ',' then [.comma]
  else if c = ' ' ∨ c = '\t' ∨ c = '\r' ∨ c = '\n' then []
  else [.other c]

/-- Cut a line into tokens; `;` begins a comment (R64). -/
def lex : List Char → (acc : List Char) → List Token
  | [], acc => endWord acc
  | c :: cs, acc =>
    if c = ';' then endWord acc
    else if isWordChar c then lex cs (c :: acc)
    else endWord acc ++ punctuation c ++ lex cs []

/-- The value of a digit character. -/
def digitValue (c : Char) : Option Nat :=
  if '0' ≤ c ∧ c ≤ '9' then some (c.toNat - '0'.toNat)
  else if 'a' ≤ c ∧ c ≤ 'f' then some (c.toNat - 'a'.toNat + 10)
  else if 'A' ≤ c ∧ c ≤ 'F' then some (c.toNat - 'A'.toNat + 10)
  else none

/-- Digits in a base, most significant first. -/
def digitsValue (base : Nat) : List Char → (acc : Nat) → Option Nat
  | [], acc => some acc
  | c :: cs, acc =>
    match digitValue c with
    | none => none
    | some d => if d < base then digitsValue base cs (acc * base + d) else none

/-- A number in decimal or `0x` hexadecimal (R64). -/
def numberValue (w : List Char) : Option Nat :=
  match w with
  | [] => none
  | '0' :: 'x' :: [] => none
  | '0' :: 'x' :: ds => digitsValue 16 ds 0
  | ds => digitsValue 10 ds 0

/-- A number below a bound (R66). -/
def boundedNumber (bound : Nat) (w : List Char) : Except AsmError Nat :=
  match numberValue w with
  | none => .error .badNumber
  | some n => if n < bound then .ok n else .error .outOfRange

/-- The byte values of a DATA list after its first `[` and up to the closing `]`, which must end the line (R64).
`afterComma` says that a value must come next. -/
def dataItems : List Token → (afterComma : Bool) → Except AsmError (List Byte)
  | [.closeBracket], false => .ok []
  | .word w :: .comma :: rest, _ =>
    match boundedNumber 256 w with
    | .error e => .error e
    | .ok n =>
      match dataItems rest true with
      | .error e => .error e
      | .ok bs => .ok (BitVec.ofNat 8 n :: bs)
  | [.word w, .closeBracket], _ =>
    match boundedNumber 256 w with
    | .error e => .error e
    | .ok n => .ok [BitVec.ofNat 8 n]
  | _, _ => .error .malformed

/-- The operands written on a line: ARG, then DATA (R64). -/
def operandTokens : List Token → Except AsmError (Option Arg × Option (List Byte))
  | [] => .ok (none, none)
  | .openBracket :: rest =>
    match dataItems rest false with
    | .error e => .error e
    | .ok bs => .ok (none, some bs)
  | [.word w] =>
    match boundedNumber (2 ^ 32) w with
    | .error e => .error e
    | .ok n => .ok (some (BitVec.ofNat 32 n), none)
  | .word w :: .openBracket :: rest =>
    match boundedNumber (2 ^ 32) w with
    | .error e => .error e
    | .ok n =>
      match dataItems rest false with
      | .error e => .error e
      | .ok bs => .ok (some (BitVec.ofNat 32 n), some bs)
  | _ => .error .malformed

/-- A command without operands. -/
def plainForm (i : Instr) (ops : Option Arg × Option (List Byte)) : Except AsmError Instr :=
  match ops with
  | (none, none) => .ok i
  | _ => .error .wrongOperands

/-- A command with ARG alone. -/
def argForm (f : Arg → Instr) (ops : Option Arg × Option (List Byte)) : Except AsmError Instr :=
  match ops with
  | (some a, none) => .ok (f a)
  | _ => .error .wrongOperands

/-- A command with DATA alone. -/
def dataForm (f : List Byte → Instr) (ops : Option Arg × Option (List Byte)) : Except AsmError Instr :=
  match ops with
  | (none, some d) => .ok (f d)
  | _ => .error .wrongOperands

/-- A command with ARG and DATA. -/
def argDataForm (f : Arg → List Byte → Instr) (ops : Option Arg × Option (List Byte)) : Except AsmError Instr :=
  match ops with
  | (some a, some d) => .ok (f a d)
  | _ => .error .wrongOperands

/-- `HD_DECSTAGE` takes DATA and uses STAGE_CAP for ARG (R65). -/
def stageForm (c : Config) (ops : Option Arg × Option (List Byte)) : Except AsmError Instr :=
  match ops with
  | (none, some d) =>
    match hdDecStage c d with
    | some i => .ok i
    | none => .error .outOfRange
  | _ => .error .wrongOperands

/-- The mnemonics of R58 and R65, each with the operands it takes. -/
def mnemonicForm (c : Config) (w : List Char) (ops : Option Arg × Option (List Byte)) : Except AsmError Instr :=
  if w = "RB_ENQ".toList then dataForm .rbEnq ops
  else if w = "RB_DEQ".toList then argForm .rbDeq ops
  else if w = "RB_PEEK".toList then argForm .rbPeek ops
  else if w = "RB_CLR".toList then plainForm .rbClr ops
  else if w = "RB_IDX".toList then argForm .rbIdx ops
  else if w = "RB_LEN".toList then plainForm .rbLen ops
  else if w = "RB_LOCK".toList then plainForm .rbLock ops
  else if w = "RB_UNLOCK".toList then plainForm .rbUnlock ops
  else if w = "HD_DEC".toList then argDataForm .hdDec ops
  else if w = "RX_CMPEN".toList then plainForm .rxCmpen ops
  else if w = "RX_FEED".toList then dataForm .rxFeed ops
  else if w = "CONN_RST".toList then plainForm .connRst ops
  else if w = "RB_DRAIN".toList then plainForm rbDrain ops
  else if w = "RB_PEEKID".toList then plainForm rbPeekId ops
  else if w = "HD_DECSTAGE".toList then stageForm c ops
  else .error .unknownMnemonic

/-- The agent before the colon (R64). -/
def agentNamed (w : List Char) : Except AsmError Agent :=
  if w = "A0".toList then .ok .A0
  else if w = "A1".toList then .ok .A1
  else .error .unknownAgent

/-- A mnemonic and its operands, issued by agent `a`. -/
def assembleCommand (c : Config) (a : Agent) (w : List Char) (rest : List Token) : Except AsmError (Agent × Command) :=
  match operandTokens rest with
  | .error e => .error e
  | .ok ops =>
    match mnemonicForm c w ops with
    | .error e => .error e
    | .ok i => .ok (a, encode i)

/-- One line to its request record (R64); none for a line that holds nothing but blanks or a comment. The agent is A0 where
none is written. -/
def assemble (c : Config) (line : List Char) : Except AsmError (Option (Agent × Command)) :=
  match lex line [] with
  | [] => .ok none
  | .word w :: .colon :: .word m :: rest =>
    match agentNamed w with
    | .error e => .error e
    | .ok a => (assembleCommand c a m rest).map some
  | .word m :: rest => (assembleCommand c .A0 m rest).map some
  | _ => .error .malformed

end Sys2Proof.Machine
end

