-- ==== Sys2Proof/Safety.lean ====
section
/-! DEFINITION. The terms claims use: the invariants of the spec, the live bytes, an independent reading of the compressed bit stream, runs of commands, and fairness. -/

namespace Sys2Proof.Safety

open Sys2Proof.Machine

/-! ### The ring -/

/-- The live bytes, oldest first (R73). -/
def contents (rb : Ring) : Except Fault (List Byte) := readLive rb rb.length

/-- The ring invariants (R17, R23), with what makes them usable on this model's storage: canonical form, every listed
address inside the storage, every live byte written. -/
structure RingInv (c : Config) (rb : Ring) : Prop where
  capacity_pos : 1 ≤ rb.capacity
  capacity_max : c.exceedsMax rb.capacity = false
  length_le : rb.length ≤ rb.capacity
  head_lt : rb.head < rb.capacity
  tail_lt : rb.tail < rb.capacity
  tail_eq : rb.tail = (rb.head + rb.length) % rb.capacity
  normal : rb.length = 0 → rb.head = 0 ∧ rb.tail = 0
  canonical : Memory.wf rb.storage
  inside : ∀ x ∈ rb.storage, x.1 < rb.capacity
  written : ∀ k, k < rb.length → (Memory.read rb.storage (liveAddress rb k)).isSome = true

/-- n more bytes fit: without growth, or in a multiple of the growth quantum that MAX_CAPACITY allows (R70, R71). -/
def hasRoom (s : State) (n : Nat) : Prop :=
  s.rb.length + n ≤ s.rb.capacity ∨
    ∀ m, s.cfg.maxCapacity = some m → ∃ q, s.rb.length + n ≤ q * 2048 ∧ q * 2048 ≤ m

/-- `newCap` is the least multiple of 2048 that is at least `need` (R70). -/
def isGrowthFor (need newCap : Nat) : Prop :=
  2048 ∣ newCap ∧ need ≤ newCap ∧ ∀ m, 2048 ∣ m → need ≤ m → newCap ≤ m

/-- What storing n bytes behind the live ones does to the ring, but for the bytes themselves. Without growth (R72): capacity,
head and allocation as before, the tail n further, every byte outside the n stored ones as before. With growth (R69, R70):
the least capacity that is enough, the live bytes from address 0, a new allocation. -/
structure StoredBehind (r q : Ring) (n : Nat) : Prop where
  length : q.length = r.length + n
  fits : r.length + n ≤ r.capacity →
    q.capacity = r.capacity ∧ q.head = r.head ∧ q.tail = (r.tail + n) % r.capacity ∧ q.allocation = r.allocation ∧
      ∀ a, (∀ k, k < n → a ≠ (r.tail + k) % r.capacity) → q.storage.read a = r.storage.read a
  grows : r.capacity < r.length + n →
    isGrowthFor (r.length + n) q.capacity ∧ q.head = 0 ∧ q.tail = (r.length + n) % q.capacity ∧
      q.allocation = r.allocation + 1

/-! ### The decoder -/

/-- The decoder invariant inside a call (R29). -/
abbrev CursorInv (d : Decoder) : Prop :=
  d.dstate = .ready → d.bitPosition.val < 8 → d.bitMask = (0x80 : Byte) >>> d.bitPosition.val

/-- The decoder invariant between commands (R103): READY only at a byte boundary. -/
abbrev BoundaryInv (d : Decoder) : Prop := d.dstate = .ready → d.bitPosition = 8

/-! ### The whole state -/

/-- What holds of every state between commands: R7, R17, R23, R33, R54, R103. -/
structure Inv (s : State) : Prop where
  cfg_wf : s.cfg.wf
  ring : RingInv s.cfg s.rb
  decoder : BoundaryInv s.dec
  seen : s.faultSeen = !s.flog.isEmpty
  queue0 : ∀ c ∈ s.queueA0, c.wf
  queue1 : ∀ c ∈ s.queueA1, c.wf

/-- The lock does not hold the issuer's commands (R49). -/
abbrev lockAllows (s : State) : Prop := s.lockOwner = none ∨ s.lockOwner = some s.issuer

/-! ### An independent reading of the compressed stream (R41, R67, R89 to R92) -/

/-- The bits of a byte, bit 7 first (R41). -/
def bitsOf (b : Byte) : List Bool :=
  [b.getLsbD 7, b.getLsbD 6, b.getLsbD 5, b.getLsbD 4, b.getLsbD 3, b.getLsbD 2, b.getLsbD 1, b.getLsbD 0]

/-- Walk the tree over the bits of one byte from a node: the node reached and the symbols on the way. A sentinel drops the
bits after it (R91). -/
def walkBits (t : Tree) : Fin treeNodes → List Bool → Fin treeNodes × List Byte
  | n, [] => (n, [])
  | n, b :: bs =>
    match classify (treeEntry t n b) with
    | .sentinel => (0, [])
    | .leaf x => ((walkBits t 0 bs).1, x :: (walkBits t 0 bs).2)
    | .child m => walkBits t m bs

/-- Walk the tree over a chunk: the node reached and all the symbols, with no limit on how many. -/
def walkBytes (t : Tree) : Fin treeNodes → List Byte → Fin treeNodes × List Byte
  | n, [] => (n, [])
  | n, b :: bs =>
    ((walkBytes t (walkBits t n (bitsOf b)).1 bs).1,
     (walkBits t n (bitsOf b)).2 ++ (walkBytes t (walkBits t n (bitsOf b)).1 bs).2)

/-- How many bits of a byte are read before a sentinel drops the rest, the sentinel's own bit included; all of them where
there is none. -/
def bitsRead (t : Tree) : Fin treeNodes → List Bool → Nat
  | _, [] => 0
  | n, b :: bs =>
    match classify (treeEntry t n b) with
    | .sentinel => 1
    | .leaf _ => bitsRead t 0 bs + 1
    | .child m => bitsRead t m bs + 1

/-! ### Runs of commands -/

/-- The response a command added, if it gave one (a held command gives none). -/
def newResponse (s t : State) : Option Response := (t.responses.drop s.responses.length).head?

/-- The five ring commands of the FIFO law (R85). -/
def fifoCommand : Instr → Bool
  | .rbEnq _ => true
  | .rbDeq _ => true
  | .rbPeek _ => true
  | .rbClr => false
  | .rbIdx _ => true
  | .rbLen => true
  | .rbLock => false
  | .rbUnlock => false
  | .hdDec _ _ => false
  | .rxCmpen => false
  | .rxFeed _ => false
  | .connRst => false

/-- The bytes a command takes in, for the FIFO law: RB_ENQ's DATA_IN. -/
def bytesIn : Instr → List Byte
  | .rbEnq data => data
  | _ => []

/-- The bytes a completed command takes out, for the FIFO law: RB_DEQ's DATA_OUT. -/
def bytesOut (i : Instr) (r : Response) : List Byte :=
  match i with
  | .rbDeq _ => r.dataOut
  | _ => []

/-- A run of ring commands, each issued by its agent: the state after it, the concatenation of what RB_ENQ took in and of
what RB_DEQ gave back. None where a command is not one of the five, is held, faults, or the model stops. -/
def fifoRun : List (Agent × Instr) → State → Option (State × List Byte × List Byte)
  | [], s => some (s, [], [])
  | (a, i) :: rest, s =>
    if fifoCommand i then
      match exec i { s with issuer := a } with
      | .next t =>
        match newResponse s t with
        | some r =>
          if r.status = 0x00 then
            match fifoRun rest t with
            | some (u, ins, outs) => some (u, bytesIn i ++ ins, bytesOut i r ++ outs)
            | none => none
          else none
        | none => none
      | .fault _ => none
      | .refused _ => none
    else none

/-- What the outside world adds between steps: requests, each by its agent (R54). -/
def submitAll (arrivals : List (Agent × Command)) (s : State) : State :=
  arrivals.foldl (fun s x => submit x.1 x.2 s) s

/-- An unending run of the block: a step, then whatever requests arrive. -/
def IsRun (r : Nat → State) : Prop :=
  ∀ n, ∃ t arrivals, step (r n) = .next t ∧ r (n + 1) = submitAll arrivals t

/-- Weak fairness between agents (R154): an agent that could be served from some point on is served after it. -/
def WeaklyFair (r : Nat → State) : Prop :=
  ∀ a n, (∀ m, n ≤ m → Machine.ready (r m) a = true) → ∃ m, n ≤ m ∧ arbitrate (r m) = some a

/-! ### What no response depends on (R146) -/

/-- Two decoders that differ at most in what is unspecified: at a byte boundary `currentByte` and `bitMask` (R25, R26),
after an overflow the whole cursor (R29). -/
def SameDecoder (d e : Decoder) : Prop :=
  d.dstate = e.dstate ∧ (d.dstate = .ready → d.bitPosition = 8 ∧ e.bitPosition = 8 ∧ d.treeNode = e.treeNode)

/-- Two rings that differ at most in storage bytes outside the live region (R21), written or not, and so possibly in the
allocation that unwritten bytes belong to. -/
def SameRing (r q : Ring) : Prop :=
  r.capacity = q.capacity ∧ r.head = q.head ∧ r.tail = q.tail ∧ r.length = q.length ∧
    ∃ xs, contents r = .ok xs ∧ contents q = .ok xs

/-- Two states that differ at most in unspecified values. -/
def SameSpecified (s t : State) : Prop :=
  SameRing s.rb t.rb ∧ SameDecoder s.dec t.dec ∧
    t = { s with rb := t.rb, dec := t.dec }

end Sys2Proof.Safety
end

