-- ==== Sys2Proof/Certificates/Slice0/Obligations.lean ====
section
/-! DEFINITION. The statements for the provers. Next states are written out as records over the state before, so that each says its frame too. -/

open Sys2Proof Sys2Proof.Machine Sys2Proof.Safety

/-! ### Encoding (30_encoding.md) -/

/-- R58: the opcode map, row by row, the reserved rows among them. -/
def Obligations.OpcodeMapDecodesEveryRow : Prop :=
  ∀ (arg : Arg) (data : List Byte), data.length < 2 ^ 32 →
    decode ⟨0b00000000, arg, data⟩ = .reservedOpcode ∧
    decode ⟨0b00000001, arg, data⟩ = .instr (.rbEnq data) ∧
    decode ⟨0b00000010, arg, data⟩ = .instr (.rbDeq arg) ∧
    decode ⟨0b00000011, arg, data⟩ = .instr (.rbPeek arg) ∧
    decode ⟨0b00000100, arg, data⟩ = .instr .rbClr ∧
    decode ⟨0b00000101, arg, data⟩ = .instr (.rbIdx arg) ∧
    decode ⟨0b00000110, arg, data⟩ = .instr .rbLen ∧
    decode ⟨0b00000111, arg, data⟩ = .instr .rbLock ∧
    decode ⟨0b00001000, arg, data⟩ = .instr .rbUnlock ∧
    decode ⟨0b00001001, arg, data⟩ = .instr (.hdDec arg data) ∧
    decode ⟨0b00001010, arg, data⟩ = .instr .rxCmpen ∧
    decode ⟨0b00001011, arg, data⟩ = .instr (.rxFeed data) ∧
    decode ⟨0b00001100, arg, data⟩ = .instr .connRst ∧
    decode ⟨0b00001101, arg, data⟩ = .reservedOpcode ∧
    decode ⟨0b00001110, arg, data⟩ = .reservedOpcode ∧
    decode ⟨0b00001111, arg, data⟩ = .reservedOpcode

/-- R59, R60, R62, R128: exactly the bytes 0x01 to 0x0C are commands; every other byte completes with IllegalCommand, writes
only the fault log, and is never held. -/
def Obligations.IllegalBytesFaultAndTwelveRun : Prop :=
  ∀ (c : Command) (s : State),
    ((c.cmd.toNat = 0 ∨ 12 < c.cmd.toNat) →
      serve c s = .next { s with
        flog := s.flog ++ [⟨s.issuer, c.cmd, .illegalCommand, .commandByte c.cmd⟩]
        faultSeen := true
        responses := s.responses ++ [⟨s.issuer, 0x01, 0, [], false⟩] } ∧
      ∀ a owner, requestHeld a c owner = false) ∧
    (1 ≤ c.cmd.toNat → c.cmd.toNat ≤ 12 → c.data.length < 2 ^ 32 →
      ∃ i, decode c = .instr i ∧ serve c s = exec i s)

/-- R57, R58: decoding an encoded well-formed command gives it back, operands and all. -/
def Obligations.DecodeOfEncodeIsTheCommand : Prop :=
  ∀ i : Instr, i.wf = true → decode (encode i) = .instr i

/-- R57, R58, R61: a request that decodes is the encoding of its command, but for operands the opcode map marks "no". -/
def Obligations.EncodeOfDecodeKeepsByteAndUsedOperands : Prop :=
  ∀ (c : Command) (i : Instr), decode c = .instr i →
    i.wf = true ∧ (encode i).cmd = c.cmd ∧
    (encode i).arg = (if usesArg i then c.arg else 0) ∧ (encode i).data = (if usesData i then c.data else [])

/-- R61: an operand the opcode map marks "no" has no effect and is not checked. -/
def Obligations.UnusedOperandsAreIgnored : Prop :=
  ∀ (c : Command) (i : Instr) (arg : Arg) (data : List Byte), decode c = .instr i →
    (usesArg i = true → arg = c.arg) → (usesData i = true → data = c.data) →
    decode ⟨c.cmd, arg, data⟩ = .instr i

/-- R64, R65: the assembler's examples, each pseudo-command, and the refusals of R64 and R66. -/
def Obligations.AssemblerExamples : Prop :=
  ∀ c : Config,
    assemble c "RB_ENQ [0x73, 0x05]".toList = .ok (some (.A0, ⟨0x01, 0, [0x73, 0x05]⟩)) ∧
    assemble c "RB_DEQ 2 ; two bytes".toList = .ok (some (.A0, ⟨0x02, 2, []⟩)) ∧
    assemble c "A1: RB_LOCK".toList = .ok (some (.A1, ⟨0x07, 0, []⟩)) ∧
    assemble c "HD_DEC 8 [0x26]".toList = .ok (some (.A0, ⟨0x09, 8, [0x26]⟩)) ∧
    assemble c "RB_DRAIN".toList = .ok (some (.A0, ⟨0x02, 0xFFFFFFFF, []⟩)) ∧
    assemble c "RB_PEEKID".toList = .ok (some (.A0, ⟨0x05, 0, []⟩)) ∧
    (c.stageCap < 2 ^ 32 → assemble c "HD_DECSTAGE []".toList = .ok (some (.A0, ⟨0x09, BitVec.ofNat 32 c.stageCap, []⟩))) ∧
    assemble c "RB_DEQ".toList = .error .wrongOperands ∧
    assemble c "RB_LEN 3".toList = .error .wrongOperands ∧
    assemble c "RB_DEQ 4294967296".toList = .error .outOfRange ∧
    assemble c "RB_ENQ [256]".toList = .error .outOfRange

/-! ### Steps and the order of service (20_memory.md R44 to R50) -/

/-- A step runs the decoded command: the served agent's oldest request leaves its queue, its agent is latched, a choice
between two agents uses up one turn (or one free value), and then `exec` runs. -/
def Obligations.StepRunsTheDecodedCommand : Prop :=
  ∀ (s : State) (a : Agent) (c : Command) (rest : List Command) (i : Instr),
    arbitrate s = some a → queueOf s a = c :: rest → decode c = .instr i →
    step s = exec i { s with
      issuer := a
      queueA0 := if a = .A0 then rest else s.queueA0
      queueA1 := if a = .A1 then rest else s.queueA1
      turns := if contended s then s.turns.tail else s.turns
      draws := if contended s && s.turns.isEmpty then s.draws + 1 else s.draws }

/-- R48, R49: whichever agent has a request that is not held, some order of service takes it next; only that agent's oldest
request leaves its queue. -/
def Obligations.EveryInterleavingIsAdmitted : Prop :=
  ∀ (s : State) (a : Agent) (c : Command) (rest : List Command),
    queueOf s a = c :: rest → requestHeld a c s.lockOwner = false →
    ∃ ts, step { s with turns := ts } = serve c (accept { s with turns := ts } a) ∧
      queueOf (accept { s with turns := ts } a) a = rest ∧
      ∀ b, b ≠ a → queueOf (accept { s with turns := ts } a) b = queueOf s b

/-- R49, R45, R134: while the other agent owns the lock, exec of a command of LOCKED_OPS answers the same state (that "no
step" shows as an unchanged next state is the model's form, log entry 6, DEDUCED) and a step does not serve its agent;
RB_UNLOCK, HD_DEC and RX_CMPEN complete all the same and their agent can be served; only the owner's RB_UNLOCK ends its
lock. -/
def Obligations.HoldRule : Prop :=
  (∀ (s : State) (b : Agent), s.lockOwner = some b → b ≠ s.issuer →
    (∀ data, exec (.rbEnq data) s = .next s) ∧ (∀ n, exec (.rbDeq n) s = .next s) ∧
    (∀ n, exec (.rbPeek n) s = .next s) ∧ exec .rbClr s = .next s ∧ (∀ n, exec (.rbIdx n) s = .next s) ∧
    exec .rbLen s = .next s ∧ exec .rbLock s = .next s ∧
    (s.issuer = .A0 → (∀ chunk, exec (.rxFeed chunk) s = .next s) ∧ exec .connRst s = .next s)) ∧
  (∀ s : State,
    (∃ t, exec .rbUnlock s = .next t ∧ t.responses.length = s.responses.length + 1) ∧
    (∃ t, exec .rxCmpen s = .next t ∧ t.responses.length = s.responses.length + 1) ∧
    (∀ cap chunk, ∃ t, exec (.hdDec cap chunk) s = .next t ∧ t.responses.length = s.responses.length + 1)) ∧
  (∀ (s : State) (a b : Agent) (c : Command) (rest : List Command), queueOf s a = c :: rest → c.data.length < 2 ^ 32 →
    s.lockOwner = some b → b ≠ a →
    (c.cmd ∈ [0x01, 0x02, 0x03, 0x04, 0x05, 0x06, 0x07] ∨ a = .A0 ∧ c.cmd ∈ [0x0B, 0x0C]) → arbitrate s ≠ some a) ∧
  (∀ (s : State) (a : Agent) (c : Command) (rest : List Command), queueOf s a = c :: rest →
    c.cmd ∈ [0x08, 0x09, 0x0A] → Machine.ready s a = true) ∧
  (∀ (s t : State) (b : Agent) (i : Instr), s.lockOwner = some b → exec i s = .next t → t.lockOwner ≠ some b →
    i = .rbUnlock ∧ s.issuer = b)

/-- R150, R50: while one agent owns the lock, no step that serves the other touches the ring or the lock. -/
def Obligations.LockedSequenceIsNotInterleaved : Prop :=
  ∀ (s t : State) (a b : Agent), s.lockOwner = some b → a ≠ b → arbitrate s = some a → step s = .next t →
    t.rb = s.rb ∧ t.lockOwner = some b

/-- R47, R144, R50, R150: where every waiting request is held, the step changes nothing and nothing stops. With no request
waiting at all, in either queue, the block is idle and waits for the next command; with one held, it hangs. That a wait or a
hang is a step that changes nothing is the model's form, log entry 5, DESIGN CHOICE. -/
def Obligations.UnreleasedLockIsAHang : Prop :=
  (∀ s : State, queueOf s .A0 = [] → queueOf s .A1 = [] → step s = .next s) ∧
  ∀ s : State, (∀ (a : Agent) (c : Command) (rest : List Command), queueOf s a = c :: rest →
    requestHeld a c s.lockOwner = true) → step s = .next s

/-- R154: in a weakly fair run a request that no lock can hold is taken at last. -/
def Obligations.FairRunServesUnheldRequests : Prop :=
  ∀ r : Nat → State, IsRun r → WeaklyFair r →
    ∀ (n : Nat) (a : Agent) (c : Command) (rest : List Command), queueOf (r n) a = c :: rest →
      (∀ owner, requestHeld a c owner = false) →
      ∃ m rest', n ≤ m ∧ arbitrate (r m) = some a ∧ queueOf (r m) a = c :: rest'

/-! ### Faults and responses (60_exceptions.md) -/

/-- R129: the four decoder and connection commands from A1, whoever owns the lock; never held. -/
def Obligations.ProducerMayNotDecodeOrReset : Prop :=
  ∀ s : State, s.issuer = .A1 →
    (∀ cap chunk, exec (.hdDec cap chunk) s = .next { s with
      flog := s.flog ++ [⟨.A1, 0x09, .agentNotPermitted, .opcode 0x9⟩], faultSeen := true
      responses := s.responses ++ [⟨.A1, 0x02, 0, [], false⟩] }) ∧
    exec .rxCmpen s = .next { s with
      flog := s.flog ++ [⟨.A1, 0x0A, .agentNotPermitted, .opcode 0xA⟩], faultSeen := true
      responses := s.responses ++ [⟨.A1, 0x02, 0, [], false⟩] } ∧
    (∀ chunk, exec (.rxFeed chunk) s = .next { s with
      flog := s.flog ++ [⟨.A1, 0x0B, .agentNotPermitted, .opcode 0xB⟩], faultSeen := true
      responses := s.responses ++ [⟨.A1, 0x02, 0, [], false⟩] }) ∧
    exec .connRst s = .next { s with
      flog := s.flog ++ [⟨.A1, 0x0C, .agentNotPermitted, .opcode 0xC⟩], faultSeen := true
      responses := s.responses ++ [⟨.A1, 0x02, 0, [], false⟩] } ∧
    ∀ (c : Command) (owner : Option Agent), 0x09 ≤ c.cmd.toNat → requestHeld .A1 c owner = false

/-- R131, R132: a fault other than DecompressOverflow appends one record, sets FAULT_SEEN, answers value 0, no data and
more 0, and writes nothing else. -/
def Obligations.FaultsArePrecise : Prop :=
  ∀ (c : Command) (s t : State) (r : Response), serve c s = .next t → t.responses = s.responses ++ [r] →
    r.status ≠ 0x00 → r.status ≠ 0x07 →
    ∃ code info, faultByte code = r.status ∧ r = ⟨s.issuer, r.status, 0, [], false⟩ ∧
      t = { s with
        flog := s.flog ++ [⟨s.issuer, c.cmd, code, info⟩], faultSeen := true
        responses := s.responses ++ [r] }

/-- R126, R127, R134: a request that gives a next state is held and changes nothing (log entry 6, DEDUCED), or completes with exactly one response
to its issuer, with status 0x00 and no record, or with a fault code 0x01 to 0x08 and one record that carries it. -/
def Obligations.EveryCommandCompletesOnceOrIsHeld : Prop :=
  ∀ (c : Command) (s t : State), serve c s = .next t →
    (requestHeld s.issuer c s.lockOwner = true ∧ t = s) ∨
    ∃ r, t.responses = s.responses ++ [r] ∧ r.agent = s.issuer ∧
      ((r.status = 0x00 ∧ t.flog = s.flog ∧ t.faultSeen = s.faultSeen) ∨
        ∃ rec, t.flog = s.flog ++ [rec] ∧ rec.agent = s.issuer ∧ rec.cmd = c.cmd ∧
          faultByte rec.code = r.status ∧ 1 ≤ r.status.toNat ∧ r.status.toNat ≤ 8 ∧ t.faultSeen = true)

/-- R33, R137: no command removes a fault record and at most one is added. -/
def Obligations.FaultLogOnlyGrows : Prop :=
  ∀ s t : State, step s = .next t → ∃ l, t.flog = s.flog ++ l ∧ l.length ≤ 1 ∧ (s.faultSeen = true → t.faultSeen = true)

/-- R152: no step rewrites a response already given. -/
def Obligations.ResponsesAreNeverRewritten : Prop :=
  ∀ s t : State, step s = .next t → ∃ l, t.responses = s.responses ++ l ∧ l.length ≤ 1

/-- R56 with MAX_CAPACITY at most 2^32-1: every value the block answers fits in 32 bits. -/
def Obligations.ValueFitsThirtyTwoBits : Prop :=
  ∀ (i : Instr) (s t : State) (r : Response) (m : Nat), Inv s → s.cfg.maxCapacity = some m → m < 2 ^ 32 →
    exec i s = .next t → t.responses = s.responses ++ [r] → r.value < 2 ^ 32

/-! ### The ring (40_ring_buffer.md) -/

/-- R77: an enqueue of no bytes is a no-op that answers 0, even on a full ring. -/
def Obligations.RbEnqOfNothingIsANoOp : Prop :=
  ∀ s : State, lockAllows s →
    exec (.rbEnq []) s = .next { s with responses := s.responses ++ [⟨s.issuer, 0x00, 0, [], false⟩] }

/-- R42, R72: an enqueue that fits stores its bytes at (tail + k) mod capacity, behind the live bytes, and no other byte. -/
def Obligations.RbEnqThatFitsAppends : Prop :=
  ∀ (s : State) (data xs : List Byte), lockAllows s → RingInv s.cfg s.rb → contents s.rb = .ok xs →
    0 < data.length → s.rb.length + data.length ≤ s.rb.capacity →
    ∃ t, exec (.rbEnq data) s = .next t ∧
      t = { s with
        rb := { s.rb with
          tail := (s.rb.tail + data.length) % s.rb.capacity, length := s.rb.length + data.length
          storage := t.rb.storage }
        responses := s.responses ++ [⟨s.issuer, 0x00, data.length, [], false⟩] } ∧
      contents t.rb = .ok (xs ++ data) ∧
      (∀ k (h : k < data.length), t.rb.storage.read ((s.rb.tail + k) % s.rb.capacity) = some data[k]) ∧
      ∀ a, (∀ k, k < data.length → a ≠ (s.rb.tail + k) % s.rb.capacity) → t.rb.storage.read a = s.rb.storage.read a

/-- R69, R70: an enqueue that does not fit grows the ring to the least multiple of 2048 that is enough, the live bytes at
addresses 0 onward and the new ones behind them. The storage is a new allocation, whose other bytes are free: the model's form
of R69's "every byte unspecified", log entry 9, DESIGN CHOICE. -/
def Obligations.RbEnqThatGrowsLinearises : Prop :=
  ∀ (s : State) (data xs : List Byte) (newCap : Nat), lockAllows s → RingInv s.cfg s.rb → contents s.rb = .ok xs →
    0 < data.length → s.rb.capacity < s.rb.length + data.length → isGrowthFor (s.rb.length + data.length) newCap →
    s.cfg.exceedsMax newCap = false →
    ∃ t, exec (.rbEnq data) s = .next t ∧
      t = { s with
        rb := {
          capacity := newCap, head := 0, tail := (s.rb.length + data.length) % newCap
          length := s.rb.length + data.length, storage := t.rb.storage, allocation := s.rb.allocation + 1 }
        responses := s.responses ++ [⟨s.issuer, 0x00, data.length, [], false⟩] } ∧
      contents t.rb = .ok (xs ++ data) ∧
      ∀ k (h : k < (xs ++ data).length), t.rb.storage.read k = some (xs ++ data)[k]

/-- R71: growth past a bounded MAX_CAPACITY faults with info newCap and writes no ring state, in RB_ENQ and in RX_FEED. -/
def Obligations.GrowthPastMaxCapacityFaults : Prop :=
  ∀ (s : State) (data : List Byte) (newCap m : Nat), lockAllows s →
    0 < data.length → s.rb.capacity < s.rb.length + data.length → isGrowthFor (s.rb.length + data.length) newCap →
    s.cfg.maxCapacity = some m → m < newCap →
    exec (.rbEnq data) s = .next { s with
      flog := s.flog ++ [⟨s.issuer, 0x01, .capacityExceeded, .neededCapacity newCap⟩], faultSeen := true
      responses := s.responses ++ [⟨s.issuer, 0x06, 0, [], false⟩] } ∧
    (s.issuer = .A0 → s.compressEn = false →
      exec (.rxFeed data) s = .next { s with
        flog := s.flog ++ [⟨.A0, 0x0B, .capacityExceeded, .neededCapacity newCap⟩], faultSeen := true
        responses := s.responses ++ [⟨.A0, 0x06, 0, [], false⟩] })

/-- R75: with MAX_CAPACITY unbounded every enqueue that is not held succeeds and adds exactly its bytes. -/
def Obligations.UnboundedEnqueueAlwaysSucceeds : Prop :=
  ∀ (s : State) (data xs : List Byte), lockAllows s → RingInv s.cfg s.rb → contents s.rb = .ok xs →
    s.cfg.maxCapacity = none →
    ∃ t, exec (.rbEnq data) s = .next t ∧ contents t.rb = .ok (xs ++ data) ∧
      t.responses = s.responses ++ [⟨s.issuer, 0x00, data.length, [], false⟩]

/-- R78: clear sets head, tail and length to 0 and changes nothing else. -/
def Obligations.RbClrEmptiesTheRing : Prop :=
  ∀ s : State, lockAllows s →
    exec .rbClr s = .next { s with
      rb := { s.rb with head := 0, tail := 0, length := 0 }
      responses := s.responses ++ [⟨s.issuer, 0x00, 0, [], false⟩] }

/-- R74, R79: a dequeue answers the oldest min(ARG, length) bytes and drops them; an empty ring is normalised; no byte of
storage changes. -/
def Obligations.RbDeqTakesTheOldestBytes : Prop :=
  ∀ (s : State) (n : Arg) (xs : List Byte) (cnt : Nat), lockAllows s → RingInv s.cfg s.rb → contents s.rb = .ok xs →
    cnt = min n.toNat s.rb.length →
    ∃ t, exec (.rbDeq n) s = .next t ∧
      t = { s with
        rb := { s.rb with
          head := if s.rb.length - cnt = 0 then 0 else (s.rb.head + cnt) % s.rb.capacity
          tail := if s.rb.length - cnt = 0 then 0 else s.rb.tail
          length := s.rb.length - cnt }
        responses := s.responses ++ [⟨s.issuer, 0x00, cnt, xs.take cnt, false⟩] } ∧
      contents t.rb = .ok (xs.drop cnt)

/-- R80: a peek answers the oldest bytes up to ARG, the length and the end of storage, and changes nothing. -/
def Obligations.RbPeekReadsAContiguousSegment : Prop :=
  ∀ (s : State) (n : Arg) (xs : List Byte) (cnt : Nat), lockAllows s → RingInv s.cfg s.rb → contents s.rb = .ok xs →
    cnt = min n.toNat (min s.rb.length (s.rb.capacity - s.rb.head)) →
    exec (.rbPeek n) s = .next { s with responses := s.responses ++ [⟨s.issuer, 0x00, cnt, xs.take cnt, false⟩] } ∧
    ∀ k, k < cnt → s.rb.storage.read (s.rb.head + k) = xs[k]?

/-- R81, R127: an indexed read answers the i-th oldest byte; at or past the length it faults; nothing else changes. -/
def Obligations.RbIdxReadsOneLiveByte : Prop :=
  ∀ (s : State) (n : Arg), lockAllows s →
    (∀ xs b, RingInv s.cfg s.rb → contents s.rb = .ok xs → xs[n.toNat]? = some b →
      exec (.rbIdx n) s = .next { s with responses := s.responses ++ [⟨s.issuer, 0x00, b.toNat, [], false⟩] }) ∧
    (s.rb.length ≤ n.toNat →
      exec (.rbIdx n) s = .next { s with
        flog := s.flog ++ [⟨s.issuer, 0x05, .indexOutOfRange, .indexAndLength n.toNat s.rb.length⟩], faultSeen := true
        responses := s.responses ++ [⟨s.issuer, 0x05, 0, [], false⟩] })

/-- R82: the length read answers RB.length and changes nothing. -/
def Obligations.RbLenAnswersTheLength : Prop :=
  ∀ s : State, lockAllows s →
    exec .rbLen s = .next { s with responses := s.responses ++ [⟨s.issuer, 0x00, s.rb.length, [], false⟩] }

/-- R83, R127: the lock goes to the issuer if free; the issuer's own lock faults, the record's info the agent (R127); with
the other agent the owner the command is held (R49), which exec shows as an unchanged next state: the model's form, log
entry 6, DEDUCED. -/
def Obligations.RbLockAcquiresAFreeLock : Prop :=
  ∀ s : State,
    (s.lockOwner = none →
      exec .rbLock s = .next { s with
        lockOwner := some s.issuer, responses := s.responses ++ [⟨s.issuer, 0x00, 0, [], false⟩] }) ∧
    (s.lockOwner = some s.issuer →
      exec .rbLock s = .next { s with
        flog := s.flog ++ [⟨s.issuer, 0x07, .lockReentry, .agent s.issuer⟩], faultSeen := true
        responses := s.responses ++ [⟨s.issuer, 0x03, 0, [], false⟩] }) ∧
    (∀ b, b ≠ s.issuer → s.lockOwner = some b → exec .rbLock s = .next s)

/-- R84, R127: the owner's unlock frees the lock; anyone else's faults, the record's info the agent and the owner. -/
def Obligations.RbUnlockReleasesTheOwnersLock : Prop :=
  ∀ s : State,
    (s.lockOwner = some s.issuer →
      exec .rbUnlock s = .next { s with
        lockOwner := none, responses := s.responses ++ [⟨s.issuer, 0x00, 0, [], false⟩] }) ∧
    (s.lockOwner ≠ some s.issuer →
      exec .rbUnlock s = .next { s with
        flog := s.flog ++ [⟨s.issuer, 0x08, .unlockNotOwner, .agentAndOwner s.issuer s.lockOwner⟩], faultSeen := true
        responses := s.responses ++ [⟨s.issuer, 0x04, 0, [], false⟩] })

/-- R76: no read of the ring answers a byte outside the live region. -/
def Obligations.ReadsStayInsideTheLiveBytes : Prop :=
  ∀ (s t : State) (r : Response) (xs : List Byte) (n : Arg), RingInv s.cfg s.rb → contents s.rb = .ok xs →
    t.responses = s.responses ++ [r] →
    ((exec (.rbDeq n) s = .next t ∨ exec (.rbPeek n) s = .next t) →
      r.dataOut.length ≤ s.rb.length ∧ r.dataOut <+: xs) ∧
    (exec (.rbIdx n) s = .next t →
      (s.rb.length ≤ n.toNat → r.status = 0x05) ∧ (n.toNat < s.rb.length → ∃ b, xs[n.toNat]? = some b ∧ r.value = b.toNat))

/-- R85: over any run of RB_ENQ, RB_DEQ, RB_PEEK, RB_IDX and RB_LEN from an empty ring, by both agents, what came out is a
prefix of what went in and the live bytes are exactly the rest, in order. -/
def Obligations.FifoLaw : Prop :=
  ∀ (run : List (Agent × Instr)) (s t : State) (ins outs : List Byte), RingInv s.cfg s.rb → s.rb.length = 0 →
    fifoRun run s = some (t, ins, outs) → ∃ rest, contents t.rb = .ok rest ∧ ins = outs ++ rest

/-! ### The decoder (41_decompressor.md) -/

/-- R87, R88: the classification of a well-formed entry; the sentinel is no leaf. -/
def Obligations.ClassifyTestsTheSentinelFirst : Prop :=
  ∀ v : Int, -256 ≤ v → v ≤ 255 →
    (v = -256 → classify v = .sentinel) ∧
    (-255 ≤ v → v ≤ 0 → ∃ b : Byte, classify v = .leaf b ∧ (b.toNat : Int) = -v) ∧
    (1 ≤ v → ∃ n : Fin treeNodes, classify v = .child n ∧ (n.val : Int) = v)

/-- R29: inside a call, every byte load and every bit step keep bitMask = 0x80 >> bitPosition below position 8. -/
def Obligations.BitStepsKeepTheCursorInvariant : Prop :=
  (∀ (b : Byte) (d : Decoder), CursorInv (fetchByte b d)) ∧
  ∀ (t : Tree) (cap : Nat) (d d' : Decoder) (out out' : List Byte), d.dstate = .ready → d.bitPosition.val < 8 →
    CursorInv d → bitStep t cap d out = some (d', out') → CursorInv d' ∧ d'.dstate = .ready

/-- R93, R94, R95, R133: HD_DEC against the plain walk over the bits (`walkBytes`, which knows no capacity and no cursor).
If the chunk's symbols fit in ARG bytes they are the answer, more = 1, and the decoder waits at a byte boundary at the
node the walk reached; if they do not, the answer is the first ARG of them, status 0x07, and D is FAULTED. Nothing else
changes. -/
def Obligations.HdDecAnswersTheWalkOverTheBits : Prop :=
  ∀ (s : State) (cap : Arg) (chunk : List Byte), s.issuer = .A0 → s.dec.dstate = .ready → s.dec.bitPosition = 8 →
    ((walkBytes s.cfg.tree s.dec.treeNode chunk).2.length ≤ cap.toNat →
      ∃ d, exec (.hdDec cap chunk) s = .next { s with
          dec := d
          responses := s.responses ++ [⟨.A0, 0x00, (walkBytes s.cfg.tree s.dec.treeNode chunk).2.length,
            (walkBytes s.cfg.tree s.dec.treeNode chunk).2, true⟩] } ∧
        d.treeNode = (walkBytes s.cfg.tree s.dec.treeNode chunk).1 ∧ d.bitPosition = 8 ∧ d.dstate = .ready ∧
        (∀ b, chunk.getLast? = some b → d.currentByte = b)) ∧
    (cap.toNat < (walkBytes s.cfg.tree s.dec.treeNode chunk).2.length →
      ∃ d, exec (.hdDec cap chunk) s = .next { s with
          dec := d
          flog := s.flog ++ [⟨.A0, 0x09, .decompressOverflow, .capAndProduced cap.toNat cap.toNat⟩], faultSeen := true
          responses := s.responses ++ [⟨.A0, 0x07, cap.toNat,
            (walkBytes s.cfg.tree s.dec.treeNode chunk).2.take cap.toNat, false⟩]
          draws := s.draws + 1 } ∧
        d.dstate = .faulted)

/-- R106: a faulted decoder decodes nothing, and only CONN_RST makes it ready again. -/
def Obligations.FaultedDecoderStaysFaulted : Prop :=
  ∀ s : State, s.dec.dstate = .faulted →
    (s.issuer = .A0 → ∀ cap chunk, exec (.hdDec cap chunk) s = .next { s with
      flog := s.flog ++ [⟨.A0, 0x09, .decoderFaulted, .nothing⟩], faultSeen := true
      responses := s.responses ++ [⟨.A0, 0x08, 0, [], false⟩] }) ∧
    (s.issuer = .A0 → lockAllows s → s.compressEn = true → ∀ chunk, exec (.rxFeed chunk) s = .next { s with
      flog := s.flog ++ [⟨.A0, 0x0B, .decoderFaulted, .nothing⟩], faultSeen := true
      responses := s.responses ++ [⟨.A0, 0x08, 0, [], false⟩] }) ∧
    ∀ i t, exec i s = .next t → t.dec.dstate = .ready → i = .connRst

/-- R102: an empty chunk changes no field of D. -/
def Obligations.EmptyChunkChangesNothing : Prop :=
  ∀ (s : State) (cap : Arg), s.issuer = .A0 → s.dec.dstate = .ready → s.dec.bitPosition = 8 →
    exec (.hdDec cap []) s = .next { s with responses := s.responses ++ [⟨.A0, 0x00, 0, [], true⟩] }

/-- R103: a decoder call that does not fault ends READY at a byte boundary, whatever the cursor was when it began. -/
def Obligations.CallsEndAtAByteBoundary : Prop :=
  ∀ (s t : State) (cap : Arg) (chunk : List Byte) (r : Response), exec (.hdDec cap chunk) s = .next t →
    t.responses = s.responses ++ [r] → r.status = 0x00 → t.dec.bitPosition = 8 ∧ t.dec.dstate = .ready

/-- R104: split invariance. Two calls that do not fault and one call on the concatenation, with room for both outputs, give
the same bytes and the same D, every field of it. -/
def Obligations.SplitInvariance : Prop :=
  ∀ (s s1 s2 : State) (x y : List Byte) (c1 c2 c : Arg) (r1 r2 : Response),
    exec (.hdDec c1 x) s = .next s1 → s1.responses = s.responses ++ [r1] → r1.status = 0x00 →
    exec (.hdDec c2 y) s1 = .next s2 → s2.responses = s1.responses ++ [r2] → r2.status = 0x00 →
    r1.dataOut.length + r2.dataOut.length ≤ c.toNat →
    exec (.hdDec c (x ++ y)) s = .next { s with
      dec := s2.dec
      responses := s.responses ++ [⟨s.issuer, 0x00, r1.dataOut.length + r2.dataOut.length,
        r1.dataOut ++ r2.dataOut, true⟩] }

/-- R105: the bits of an input byte after a sentinel change neither the output nor the end state, but for currentByte. -/
def Obligations.PaddingAfterASentinelHasNoEffect : Prop :=
  ∀ (s t u : State) (cap : Arg) (x y : List Byte) (b b' : Byte) (k : Nat), BoundaryInv s.dec →
    k = bitsRead s.cfg.tree (walkBytes s.cfg.tree s.dec.treeNode x).1 (bitsOf b) →
    (bitsOf b).take k = (bitsOf b').take k →
    exec (.hdDec cap (x ++ b :: y)) s = .next t → exec (.hdDec cap (x ++ b' :: y)) s = .next u →
    u = { t with dec := { t.dec with currentByte := u.dec.currentByte } }

/-! ### The receive path (42_receive_path.md) -/

/-- R120: RX_CMPEN sets COMPRESS_EN and nothing else. -/
def Obligations.RxCmpenEnablesCompression : Prop :=
  ∀ s : State, s.issuer = .A0 →
    exec .rxCmpen s = .next { s with compressEn := true, responses := s.responses ++ [⟨.A0, 0x00, 0, [], false⟩] }

/-- R121, compression off: the chunk is enqueued unchanged, D is untouched, more is 0; the ring grows only where the chunk does
not fit, and then as R69 and R70 say, and without growth no other byte of storage changes. That growth is a new allocation
is the model's form, log entry 9, DESIGN CHOICE. -/
def Obligations.RxFeedRawEnqueuesTheChunk : Prop :=
  ∀ (s : State) (chunk xs : List Byte), s.issuer = .A0 → lockAllows s → RingInv s.cfg s.rb → contents s.rb = .ok xs →
    s.compressEn = false → hasRoom s chunk.length →
    ∃ t, exec (.rxFeed chunk) s = .next t ∧
      t = { s with rb := t.rb, responses := s.responses ++ [⟨.A0, 0x00, chunk.length, [], false⟩] } ∧
      contents t.rb = .ok (xs ++ chunk) ∧ StoredBehind s.rb t.rb chunk.length

/-- R118, R121, compression on: the symbols of the chunk, as the plain walk gives them, are enqueued, and D waits at a byte
boundary at the node the walk reached. The ring grows only where the symbols do not fit, and then as R69 and R70 say; without
growth no byte of storage changes but those the symbols are stored to. That growth is a new allocation is the model's form,
log entry 9, DESIGN CHOICE. -/
def Obligations.RxFeedCompressedEnqueuesTheSymbols : Prop :=
  ∀ (s : State) (chunk xs : List Byte), s.issuer = .A0 → lockAllows s → RingInv s.cfg s.rb → contents s.rb = .ok xs →
    s.compressEn = true → s.dec.dstate = .ready → s.dec.bitPosition = 8 →
    (walkBytes s.cfg.tree s.dec.treeNode chunk).2.length ≤ s.cfg.stageCap →
    hasRoom s (walkBytes s.cfg.tree s.dec.treeNode chunk).2.length →
    ∃ t, exec (.rxFeed chunk) s = .next t ∧
      t = { s with
        rb := t.rb, dec := t.dec
        responses := s.responses ++ [⟨.A0, 0x00, (walkBytes s.cfg.tree s.dec.treeNode chunk).2.length, [], true⟩] } ∧
      contents t.rb = .ok (xs ++ (walkBytes s.cfg.tree s.dec.treeNode chunk).2) ∧
      StoredBehind s.rb t.rb (walkBytes s.cfg.tree s.dec.treeNode chunk).2.length ∧
      t.dec.treeNode = (walkBytes s.cfg.tree s.dec.treeNode chunk).1 ∧ t.dec.bitPosition = 8 ∧ t.dec.dstate = .ready

/-- R121, R133: a chunk that decodes to more than STAGE_CAP bytes enqueues nothing, faults, and leaves D FAULTED. -/
def Obligations.RxFeedOverflowEnqueuesNothing : Prop :=
  ∀ (s : State) (chunk : List Byte), s.issuer = .A0 → lockAllows s → s.compressEn = true →
    s.dec.dstate = .ready → s.dec.bitPosition = 8 →
    s.cfg.stageCap < (walkBytes s.cfg.tree s.dec.treeNode chunk).2.length →
    ∃ d, exec (.rxFeed chunk) s = .next { s with
        dec := d
        flog := s.flog ++ [⟨.A0, 0x0B, .decompressOverflow, .capAndProduced s.cfg.stageCap s.cfg.stageCap⟩]
        faultSeen := true
        responses := s.responses ++ [⟨.A0, 0x07, 0, [], false⟩]
        draws := s.draws + 1 } ∧
      d.dstate = .faulted

/-- R121, R124, R132: a compressed chunk whose symbols would need growth past MAX_CAPACITY enqueues nothing and leaves D as
it was before the command. -/
def Obligations.RxFeedThatCannotGrowRestoresTheDecoder : Prop :=
  ∀ (s : State) (chunk : List Byte) (n newCap m : Nat), s.issuer = .A0 → lockAllows s → s.compressEn = true →
    s.dec.dstate = .ready → s.dec.bitPosition = 8 → n = (walkBytes s.cfg.tree s.dec.treeNode chunk).2.length →
    n ≤ s.cfg.stageCap → 0 < n → s.rb.capacity < s.rb.length + n → isGrowthFor (s.rb.length + n) newCap →
    s.cfg.maxCapacity = some m → m < newCap →
    exec (.rxFeed chunk) s = .next { s with
      flog := s.flog ++ [⟨.A0, 0x0B, .capacityExceeded, .neededCapacity newCap⟩], faultSeen := true
      responses := s.responses ++ [⟨.A0, 0x06, 0, [], false⟩] }

/-- R124: RX_FEED is all or nothing, DecompressOverflow excepted. -/
def Obligations.RxFeedIsAllOrNothing : Prop :=
  ∀ (s t : State) (chunk : List Byte) (r : Response), exec (.rxFeed chunk) s = .next t →
    t.responses = s.responses ++ [r] →
    ((r.status = 0x06 ∨ r.status = 0x02 ∨ r.status = 0x08) →
      t.dec = s.dec ∧ t.rb = s.rb ∧ t.compressEn = s.compressEn) ∧
    (r.status = 0x07 → t.rb = s.rb ∧ t.dec.dstate = .faulted) ∧
    (r.status = 0x00 → ∀ xs, RingInv s.cfg s.rb → BoundaryInv s.dec → contents s.rb = .ok xs →
      (s.compressEn = false → contents t.rb = .ok (xs ++ chunk) ∧ t.dec = s.dec) ∧
      (s.compressEn = true → contents t.rb = .ok (xs ++ (walkBytes s.cfg.tree s.dec.treeNode chunk).2) ∧
        t.dec.treeNode = (walkBytes s.cfg.tree s.dec.treeNode chunk).1))

/-- R122: CONN_RST. Storage is a new allocation with nothing written, so every byte of it, currentByte and bitMask are free
(the model's form of "unspecified", log entries 9 and 11, DESIGN CHOICE); lock and fault log stay. -/
def Obligations.ConnRstResetsTheConnection : Prop :=
  ∀ s : State, s.issuer = .A0 → lockAllows s →
    ∃ cb bm, exec .connRst s = .next { s with
      rb := ⟨s.cfg.initCapacity, 0, 0, 0, [], s.rb.allocation + 1⟩
      dec := ⟨8, cb, bm, 0, .ready⟩
      compressEn := false
      responses := s.responses ++ [⟨.A0, 0x00, 0, [], false⟩]
      draws := s.draws + 1 }

/-- R123: a second CONN_RST changes nothing the spec specifies. -/
def Obligations.ConnRstIsIdempotent : Prop :=
  ∀ s t u : State, s.issuer = .A0 → lockAllows s → exec .connRst s = .next t → exec .connRst t = .next u →
    u.rb.capacity = t.rb.capacity ∧ u.rb.head = t.rb.head ∧ u.rb.tail = t.rb.tail ∧ u.rb.length = t.rb.length ∧
    u.dec.bitPosition = t.dec.bitPosition ∧ u.dec.treeNode = t.dec.treeNode ∧ u.dec.dstate = t.dec.dstate ∧
    u.compressEn = t.compressEn ∧ u.lockOwner = t.lockOwner ∧ u.flog = t.flog ∧ u.faultSeen = t.faultSeen ∧ u.cfg = t.cfg

/-- R145: CONN_RST equals power-on reset on every field but the lock and the fault log, which it keeps. -/
def Obligations.ConnRstEqualsPowerOnButLockAndLog : Prop :=
  ∀ s t : State, s.issuer = .A0 → lockAllows s → exec .connRst s = .next t →
    t.rb.capacity = (State.powerOn s.cfg).rb.capacity ∧ t.rb.head = (State.powerOn s.cfg).rb.head ∧
    t.rb.tail = (State.powerOn s.cfg).rb.tail ∧ t.rb.length = (State.powerOn s.cfg).rb.length ∧
    t.dec.bitPosition = (State.powerOn s.cfg).dec.bitPosition ∧ t.dec.treeNode = (State.powerOn s.cfg).dec.treeNode ∧
    t.dec.dstate = (State.powerOn s.cfg).dec.dstate ∧ t.compressEn = (State.powerOn s.cfg).compressEn ∧
    t.lockOwner = s.lockOwner ∧ t.flog = s.flog ∧ t.faultSeen = s.faultSeen

/-! ### Configuration, reset and whole-machine rules (00_scope.md, 10_state.md, 70_reset_and_hazards.md) -/

/-- R9, R10: an ill-formed tree is refused; a well-formed one is held exactly; every tree an instance can hold is well-formed. -/
def Obligations.OnlyWellFormedTreesAreAccepted : Prop :=
  ∀ (tree : List Int) (initCapacity : Nat) (maxCapacity : Option Nat) (stageCap : Nat),
    (¬ (tree.length = 512 ∧ ∀ v ∈ tree, -256 ≤ v ∧ v ≤ 255) →
      Config.ofParameters tree initCapacity maxCapacity stageCap = .error .treeNotWellFormed) ∧
    (tree.length = 512 → (∀ v ∈ tree, -256 ≤ v ∧ v ≤ 255) → 1 ≤ initCapacity → (∀ m, maxCapacity = some m → initCapacity ≤ m) →
      ∃ c, Config.ofParameters tree initCapacity maxCapacity stageCap = .ok c ∧ c.wf ∧ c.initCapacity = initCapacity ∧
        c.maxCapacity = maxCapacity ∧ c.stageCap = stageCap ∧
        ∀ (n : Fin treeNodes) (b : Bool), tree[2 * n.val + b.toNat]? = some (treeEntry c.tree n b)) ∧
    ∀ (c : Config) (n : Fin treeNodes) (b : Bool), -256 ≤ treeEntry c.tree n b ∧ treeEntry c.tree n b ≤ 255

/-- R34, R144: the power-on reset state, every field the spec gives a value; and `State.reset` is that state of the
installed instance. -/
def Obligations.PowerOnResetState : Prop :=
  (∀ c : Config,
    (State.powerOn c).rb.capacity = c.initCapacity ∧ (State.powerOn c).rb.head = 0 ∧ (State.powerOn c).rb.tail = 0 ∧
    (State.powerOn c).rb.length = 0 ∧ (State.powerOn c).dec.bitPosition = 8 ∧ (State.powerOn c).dec.treeNode = 0 ∧
    (State.powerOn c).dec.dstate = .ready ∧ (State.powerOn c).compressEn = false ∧ (State.powerOn c).lockOwner = none ∧
    (State.powerOn c).flog = [] ∧ (State.powerOn c).faultSeen = false ∧ (State.powerOn c).cfg = c) ∧
  State.reset = State.powerOn Config.installed

/-- R147: the reset state meets every invariant, for every configuration and for the installed one. -/
def Obligations.ResetMeetsTheInvariants : Prop :=
  (∀ c : Config, c.wf → Inv (State.powerOn c)) ∧ Inv State.reset

/-- R23 (with R7, R17, R33, R54 and R103): every step keeps the invariants, and so does the arrival of a request the port
can carry. -/
def Obligations.StepsKeepTheInvariants : Prop :=
  (∀ s t : State, Inv s → step s = .next t → Inv t) ∧
  ∀ (s : State) (a : Agent) (c : Command), Inv s → c.wf → Inv (submit a c s)

/-- R126, R131: from a state that meets the invariants no step and no command stops the block. -/
def Obligations.NothingStopsTheBlock : Prop :=
  ∀ s : State, Inv s → (∃ t, step s = .next t) ∧ ∀ i, ∃ t, exec i s = .next t

/-- R7, R30, R51: no step changes the configuration, the decode tree included. -/
def Obligations.ConfigurationNeverChanges : Prop :=
  ∀ s t : State, step s = .next t → t.cfg = s.cfg

/-- R17, R28, R31, R32: who writes the capacity, dstate, COMPRESS_EN and the lock, and to what. -/
def Obligations.ControlStateIsWrittenOnlyByItsCommands : Prop :=
  ∀ (i : Instr) (s t : State), exec i s = .next t →
    (t.rb.capacity ≠ s.rb.capacity →
      i = .connRst ∨ (s.rb.capacity < t.rb.capacity ∧ ((∃ data, i = .rbEnq data) ∨ ∃ chunk, i = .rxFeed chunk))) ∧
    (t.dec.dstate ≠ s.dec.dstate →
      (t.dec.dstate = .ready ∧ i = .connRst) ∨
      (t.dec.dstate = .faulted ∧ ∃ r, t.responses = s.responses ++ [r] ∧ r.status = 0x07)) ∧
    (t.compressEn ≠ s.compressEn → (t.compressEn = true ∧ i = .rxCmpen) ∨ (t.compressEn = false ∧ i = .connRst)) ∧
    (t.lockOwner ≠ s.lockOwner →
      (s.lockOwner = none ∧ t.lockOwner = some s.issuer ∧ i = .rbLock) ∨
      (s.lockOwner = some s.issuer ∧ t.lockOwner = none ∧ i = .rbUnlock))

/-- R146, R21: unspecified values never reach a response. From two states that differ at most in unspecified values, a
command completes from both, with the same responses, fault records and everything else the spec specifies. -/
def Obligations.UnspecifiedValuesAreUnobservable : Prop :=
  ∀ (i : Instr) (s t : State), RingInv s.cfg s.rb → RingInv t.cfg t.rb → SameSpecified s t →
    ∃ s' t', exec i s = .next s' ∧ exec i t = .next t' ∧ SameSpecified s' t'

/-- R21, R37, R40: storage is an array of `capacity` bytes. Every byte of it can be read, whether or not anything has written
it; at and past the capacity there is no byte; and a byte that is written reads back, every other byte staying as it was.
That an unwritten byte reads as a free value is the model's form of R21's "unspecified", log entry 9, DESIGN CHOICE. -/
def Obligations.StorageIsAnArrayOfCapacityBytes : Prop :=
  ∀ (rb : Ring) (a : Nat),
    (a < rb.capacity → ∃ b, memRead rb a = .ok b ∧ (rb.storage.read a = none → b = Config.freeStorageByte rb.allocation a)) ∧
    (rb.capacity ≤ a → memRead rb a = .error (.noSuchAddress a)) ∧
    ∀ (b : Byte) (c : Nat), Memory.wf rb.storage → a < rb.capacity →
      memRead { rb with storage := Memory.write rb.storage a b } a = .ok b ∧
      (c ≠ a → memRead { rb with storage := Memory.write rb.storage a b } c = memRead rb c)

/-- R17, R21: whatever storage holds, written or not, no command stops the block while storage is there at all (R17:
`1 <= capacity`); no other invariant is needed. -/
def Obligations.CommandsCompleteWhateverTheStorageHolds : Prop :=
  ∀ s : State, 1 ≤ s.rb.capacity → ∀ i : Instr, ∃ t, exec i s = .next t
end

