-- ==== Sys2Proof/Laws/State.lean ====
section
/-! SUPPORT. One lemma per field per update of State, so that no later proof unfolds a record update. -/

namespace Sys2Proof.Machine

@[simp] theorem setRing_cfg (rb : Ring) (s : State) : (setRing rb s).cfg = s.cfg := rfl
@[simp] theorem setRing_rb (rb : Ring) (s : State) : (setRing rb s).rb = rb := rfl
@[simp] theorem setRing_dec (rb : Ring) (s : State) : (setRing rb s).dec = s.dec := rfl
@[simp] theorem setRing_compressEn (rb : Ring) (s : State) : (setRing rb s).compressEn = s.compressEn := rfl
@[simp] theorem setRing_lockOwner (rb : Ring) (s : State) : (setRing rb s).lockOwner = s.lockOwner := rfl
@[simp] theorem setRing_flog (rb : Ring) (s : State) : (setRing rb s).flog = s.flog := rfl
@[simp] theorem setRing_faultSeen (rb : Ring) (s : State) : (setRing rb s).faultSeen = s.faultSeen := rfl
@[simp] theorem setRing_issuer (rb : Ring) (s : State) : (setRing rb s).issuer = s.issuer := rfl
@[simp] theorem setRing_queueA0 (rb : Ring) (s : State) : (setRing rb s).queueA0 = s.queueA0 := rfl
@[simp] theorem setRing_queueA1 (rb : Ring) (s : State) : (setRing rb s).queueA1 = s.queueA1 := rfl
@[simp] theorem setRing_responses (rb : Ring) (s : State) : (setRing rb s).responses = s.responses := rfl
@[simp] theorem setRing_turns (rb : Ring) (s : State) : (setRing rb s).turns = s.turns := rfl
@[simp] theorem setRing_draws (rb : Ring) (s : State) : (setRing rb s).draws = s.draws := rfl

@[simp] theorem setDecoder_cfg (d : Decoder) (s : State) : (setDecoder d s).cfg = s.cfg := rfl
@[simp] theorem setDecoder_rb (d : Decoder) (s : State) : (setDecoder d s).rb = s.rb := rfl
@[simp] theorem setDecoder_dec (d : Decoder) (s : State) : (setDecoder d s).dec = d := rfl
@[simp] theorem setDecoder_compressEn (d : Decoder) (s : State) : (setDecoder d s).compressEn = s.compressEn := rfl
@[simp] theorem setDecoder_lockOwner (d : Decoder) (s : State) : (setDecoder d s).lockOwner = s.lockOwner := rfl
@[simp] theorem setDecoder_flog (d : Decoder) (s : State) : (setDecoder d s).flog = s.flog := rfl
@[simp] theorem setDecoder_faultSeen (d : Decoder) (s : State) : (setDecoder d s).faultSeen = s.faultSeen := rfl
@[simp] theorem setDecoder_issuer (d : Decoder) (s : State) : (setDecoder d s).issuer = s.issuer := rfl
@[simp] theorem setDecoder_queueA0 (d : Decoder) (s : State) : (setDecoder d s).queueA0 = s.queueA0 := rfl
@[simp] theorem setDecoder_queueA1 (d : Decoder) (s : State) : (setDecoder d s).queueA1 = s.queueA1 := rfl
@[simp] theorem setDecoder_responses (d : Decoder) (s : State) : (setDecoder d s).responses = s.responses := rfl
@[simp] theorem setDecoder_turns (d : Decoder) (s : State) : (setDecoder d s).turns = s.turns := rfl
@[simp] theorem setDecoder_draws (d : Decoder) (s : State) : (setDecoder d s).draws = s.draws := rfl

@[simp] theorem setLock_cfg (o : Option Agent) (s : State) : (setLock o s).cfg = s.cfg := rfl
@[simp] theorem setLock_rb (o : Option Agent) (s : State) : (setLock o s).rb = s.rb := rfl
@[simp] theorem setLock_dec (o : Option Agent) (s : State) : (setLock o s).dec = s.dec := rfl
@[simp] theorem setLock_compressEn (o : Option Agent) (s : State) : (setLock o s).compressEn = s.compressEn := rfl
@[simp] theorem setLock_lockOwner (o : Option Agent) (s : State) : (setLock o s).lockOwner = o := rfl
@[simp] theorem setLock_flog (o : Option Agent) (s : State) : (setLock o s).flog = s.flog := rfl
@[simp] theorem setLock_faultSeen (o : Option Agent) (s : State) : (setLock o s).faultSeen = s.faultSeen := rfl
@[simp] theorem setLock_issuer (o : Option Agent) (s : State) : (setLock o s).issuer = s.issuer := rfl
@[simp] theorem setLock_queueA0 (o : Option Agent) (s : State) : (setLock o s).queueA0 = s.queueA0 := rfl
@[simp] theorem setLock_queueA1 (o : Option Agent) (s : State) : (setLock o s).queueA1 = s.queueA1 := rfl
@[simp] theorem setLock_responses (o : Option Agent) (s : State) : (setLock o s).responses = s.responses := rfl
@[simp] theorem setLock_turns (o : Option Agent) (s : State) : (setLock o s).turns = s.turns := rfl
@[simp] theorem setLock_draws (o : Option Agent) (s : State) : (setLock o s).draws = s.draws := rfl

@[simp] theorem drawn_cfg (s : State) : (drawn s).cfg = s.cfg := rfl
@[simp] theorem drawn_rb (s : State) : (drawn s).rb = s.rb := rfl
@[simp] theorem drawn_dec (s : State) : (drawn s).dec = s.dec := rfl
@[simp] theorem drawn_compressEn (s : State) : (drawn s).compressEn = s.compressEn := rfl
@[simp] theorem drawn_lockOwner (s : State) : (drawn s).lockOwner = s.lockOwner := rfl
@[simp] theorem drawn_flog (s : State) : (drawn s).flog = s.flog := rfl
@[simp] theorem drawn_faultSeen (s : State) : (drawn s).faultSeen = s.faultSeen := rfl
@[simp] theorem drawn_issuer (s : State) : (drawn s).issuer = s.issuer := rfl
@[simp] theorem drawn_queueA0 (s : State) : (drawn s).queueA0 = s.queueA0 := rfl
@[simp] theorem drawn_queueA1 (s : State) : (drawn s).queueA1 = s.queueA1 := rfl
@[simp] theorem drawn_responses (s : State) : (drawn s).responses = s.responses := rfl
@[simp] theorem drawn_turns (s : State) : (drawn s).turns = s.turns := rfl
@[simp] theorem drawn_draws (s : State) : (drawn s).draws = s.draws + 1 := rfl

@[simp] theorem setCompress_cfg (s : State) : (setCompress s).cfg = s.cfg := rfl
@[simp] theorem setCompress_rb (s : State) : (setCompress s).rb = s.rb := rfl
@[simp] theorem setCompress_dec (s : State) : (setCompress s).dec = s.dec := rfl
@[simp] theorem setCompress_compressEn (s : State) : (setCompress s).compressEn = true := rfl
@[simp] theorem setCompress_lockOwner (s : State) : (setCompress s).lockOwner = s.lockOwner := rfl
@[simp] theorem setCompress_flog (s : State) : (setCompress s).flog = s.flog := rfl
@[simp] theorem setCompress_faultSeen (s : State) : (setCompress s).faultSeen = s.faultSeen := rfl
@[simp] theorem setCompress_issuer (s : State) : (setCompress s).issuer = s.issuer := rfl
@[simp] theorem setCompress_queueA0 (s : State) : (setCompress s).queueA0 = s.queueA0 := rfl
@[simp] theorem setCompress_queueA1 (s : State) : (setCompress s).queueA1 = s.queueA1 := rfl
@[simp] theorem setCompress_responses (s : State) : (setCompress s).responses = s.responses := rfl
@[simp] theorem setCompress_turns (s : State) : (setCompress s).turns = s.turns := rfl
@[simp] theorem setCompress_draws (s : State) : (setCompress s).draws = s.draws := rfl

@[simp] theorem clearCompress_cfg (s : State) : (clearCompress s).cfg = s.cfg := rfl
@[simp] theorem clearCompress_rb (s : State) : (clearCompress s).rb = s.rb := rfl
@[simp] theorem clearCompress_dec (s : State) : (clearCompress s).dec = s.dec := rfl
@[simp] theorem clearCompress_compressEn (s : State) : (clearCompress s).compressEn = false := rfl
@[simp] theorem clearCompress_lockOwner (s : State) : (clearCompress s).lockOwner = s.lockOwner := rfl
@[simp] theorem clearCompress_flog (s : State) : (clearCompress s).flog = s.flog := rfl
@[simp] theorem clearCompress_faultSeen (s : State) : (clearCompress s).faultSeen = s.faultSeen := rfl
@[simp] theorem clearCompress_issuer (s : State) : (clearCompress s).issuer = s.issuer := rfl
@[simp] theorem clearCompress_queueA0 (s : State) : (clearCompress s).queueA0 = s.queueA0 := rfl
@[simp] theorem clearCompress_queueA1 (s : State) : (clearCompress s).queueA1 = s.queueA1 := rfl
@[simp] theorem clearCompress_responses (s : State) : (clearCompress s).responses = s.responses := rfl
@[simp] theorem clearCompress_turns (s : State) : (clearCompress s).turns = s.turns := rfl
@[simp] theorem clearCompress_draws (s : State) : (clearCompress s).draws = s.draws := rfl

@[simp] theorem setFaultSeen_cfg (s : State) : (setFaultSeen s).cfg = s.cfg := rfl
@[simp] theorem setFaultSeen_rb (s : State) : (setFaultSeen s).rb = s.rb := rfl
@[simp] theorem setFaultSeen_dec (s : State) : (setFaultSeen s).dec = s.dec := rfl
@[simp] theorem setFaultSeen_compressEn (s : State) : (setFaultSeen s).compressEn = s.compressEn := rfl
@[simp] theorem setFaultSeen_lockOwner (s : State) : (setFaultSeen s).lockOwner = s.lockOwner := rfl
@[simp] theorem setFaultSeen_flog (s : State) : (setFaultSeen s).flog = s.flog := rfl
@[simp] theorem setFaultSeen_faultSeen (s : State) : (setFaultSeen s).faultSeen = true := rfl
@[simp] theorem setFaultSeen_issuer (s : State) : (setFaultSeen s).issuer = s.issuer := rfl
@[simp] theorem setFaultSeen_queueA0 (s : State) : (setFaultSeen s).queueA0 = s.queueA0 := rfl
@[simp] theorem setFaultSeen_queueA1 (s : State) : (setFaultSeen s).queueA1 = s.queueA1 := rfl
@[simp] theorem setFaultSeen_responses (s : State) : (setFaultSeen s).responses = s.responses := rfl
@[simp] theorem setFaultSeen_turns (s : State) : (setFaultSeen s).turns = s.turns := rfl
@[simp] theorem setFaultSeen_draws (s : State) : (setFaultSeen s).draws = s.draws := rfl

@[simp] theorem respond_cfg (st : Byte) (v : Nat) (o : List Byte) (m : Bool) (s : State) : (respond st v o m s).cfg = s.cfg := rfl
@[simp] theorem respond_rb (st : Byte) (v : Nat) (o : List Byte) (m : Bool) (s : State) : (respond st v o m s).rb = s.rb := rfl
@[simp] theorem respond_dec (st : Byte) (v : Nat) (o : List Byte) (m : Bool) (s : State) : (respond st v o m s).dec = s.dec := rfl
@[simp] theorem respond_compressEn (st : Byte) (v : Nat) (o : List Byte) (m : Bool) (s : State) : (respond st v o m s).compressEn = s.compressEn := rfl
@[simp] theorem respond_lockOwner (st : Byte) (v : Nat) (o : List Byte) (m : Bool) (s : State) : (respond st v o m s).lockOwner = s.lockOwner := rfl
@[simp] theorem respond_flog (st : Byte) (v : Nat) (o : List Byte) (m : Bool) (s : State) : (respond st v o m s).flog = s.flog := rfl
@[simp] theorem respond_faultSeen (st : Byte) (v : Nat) (o : List Byte) (m : Bool) (s : State) : (respond st v o m s).faultSeen = s.faultSeen := rfl
@[simp] theorem respond_issuer (st : Byte) (v : Nat) (o : List Byte) (m : Bool) (s : State) : (respond st v o m s).issuer = s.issuer := rfl
@[simp] theorem respond_queueA0 (st : Byte) (v : Nat) (o : List Byte) (m : Bool) (s : State) : (respond st v o m s).queueA0 = s.queueA0 := rfl
@[simp] theorem respond_queueA1 (st : Byte) (v : Nat) (o : List Byte) (m : Bool) (s : State) : (respond st v o m s).queueA1 = s.queueA1 := rfl
@[simp] theorem respond_responses (st : Byte) (v : Nat) (o : List Byte) (m : Bool) (s : State) : (respond st v o m s).responses = s.responses ++ [⟨s.issuer, st, v, o, m⟩] := rfl
@[simp] theorem respond_turns (st : Byte) (v : Nat) (o : List Byte) (m : Bool) (s : State) : (respond st v o m s).turns = s.turns := rfl
@[simp] theorem respond_draws (st : Byte) (v : Nat) (o : List Byte) (m : Bool) (s : State) : (respond st v o m s).draws = s.draws := rfl

@[simp] theorem finish_cfg (v : Nat) (o : List Byte) (m : Bool) (s : State) : (finish v o m s).cfg = s.cfg := rfl
@[simp] theorem finish_rb (v : Nat) (o : List Byte) (m : Bool) (s : State) : (finish v o m s).rb = s.rb := rfl
@[simp] theorem finish_dec (v : Nat) (o : List Byte) (m : Bool) (s : State) : (finish v o m s).dec = s.dec := rfl
@[simp] theorem finish_compressEn (v : Nat) (o : List Byte) (m : Bool) (s : State) : (finish v o m s).compressEn = s.compressEn := rfl
@[simp] theorem finish_lockOwner (v : Nat) (o : List Byte) (m : Bool) (s : State) : (finish v o m s).lockOwner = s.lockOwner := rfl
@[simp] theorem finish_flog (v : Nat) (o : List Byte) (m : Bool) (s : State) : (finish v o m s).flog = s.flog := rfl
@[simp] theorem finish_faultSeen (v : Nat) (o : List Byte) (m : Bool) (s : State) : (finish v o m s).faultSeen = s.faultSeen := rfl
@[simp] theorem finish_issuer (v : Nat) (o : List Byte) (m : Bool) (s : State) : (finish v o m s).issuer = s.issuer := rfl
@[simp] theorem finish_queueA0 (v : Nat) (o : List Byte) (m : Bool) (s : State) : (finish v o m s).queueA0 = s.queueA0 := rfl
@[simp] theorem finish_queueA1 (v : Nat) (o : List Byte) (m : Bool) (s : State) : (finish v o m s).queueA1 = s.queueA1 := rfl
@[simp] theorem finish_responses (v : Nat) (o : List Byte) (m : Bool) (s : State) : (finish v o m s).responses = s.responses ++ [⟨s.issuer, 0x00, v, o, m⟩] := rfl
@[simp] theorem finish_turns (v : Nat) (o : List Byte) (m : Bool) (s : State) : (finish v o m s).turns = s.turns := rfl
@[simp] theorem finish_draws (v : Nat) (o : List Byte) (m : Bool) (s : State) : (finish v o m s).draws = s.draws := rfl

@[simp] theorem recordFault_cfg (c : Byte) (f : FaultCode) (i : FaultInfo) (s : State) : (recordFault c f i s).cfg = s.cfg := rfl
@[simp] theorem recordFault_rb (c : Byte) (f : FaultCode) (i : FaultInfo) (s : State) : (recordFault c f i s).rb = s.rb := rfl
@[simp] theorem recordFault_dec (c : Byte) (f : FaultCode) (i : FaultInfo) (s : State) : (recordFault c f i s).dec = s.dec := rfl
@[simp] theorem recordFault_compressEn (c : Byte) (f : FaultCode) (i : FaultInfo) (s : State) : (recordFault c f i s).compressEn = s.compressEn := rfl
@[simp] theorem recordFault_lockOwner (c : Byte) (f : FaultCode) (i : FaultInfo) (s : State) : (recordFault c f i s).lockOwner = s.lockOwner := rfl
@[simp] theorem recordFault_flog (c : Byte) (f : FaultCode) (i : FaultInfo) (s : State) : (recordFault c f i s).flog = s.flog ++ [⟨s.issuer, c, f, i⟩] := rfl
@[simp] theorem recordFault_faultSeen (c : Byte) (f : FaultCode) (i : FaultInfo) (s : State) : (recordFault c f i s).faultSeen = true := rfl
@[simp] theorem recordFault_issuer (c : Byte) (f : FaultCode) (i : FaultInfo) (s : State) : (recordFault c f i s).issuer = s.issuer := rfl
@[simp] theorem recordFault_queueA0 (c : Byte) (f : FaultCode) (i : FaultInfo) (s : State) : (recordFault c f i s).queueA0 = s.queueA0 := rfl
@[simp] theorem recordFault_queueA1 (c : Byte) (f : FaultCode) (i : FaultInfo) (s : State) : (recordFault c f i s).queueA1 = s.queueA1 := rfl
@[simp] theorem recordFault_responses (c : Byte) (f : FaultCode) (i : FaultInfo) (s : State) : (recordFault c f i s).responses = s.responses := rfl
@[simp] theorem recordFault_turns (c : Byte) (f : FaultCode) (i : FaultInfo) (s : State) : (recordFault c f i s).turns = s.turns := rfl
@[simp] theorem recordFault_draws (c : Byte) (f : FaultCode) (i : FaultInfo) (s : State) : (recordFault c f i s).draws = s.draws := rfl

@[simp] theorem takeFault_cfg (c : Byte) (f : FaultCode) (i : FaultInfo) (v : Nat) (o : List Byte) (s : State) : (takeFault c f i v o s).cfg = s.cfg := rfl
@[simp] theorem takeFault_rb (c : Byte) (f : FaultCode) (i : FaultInfo) (v : Nat) (o : List Byte) (s : State) : (takeFault c f i v o s).rb = s.rb := rfl
@[simp] theorem takeFault_dec (c : Byte) (f : FaultCode) (i : FaultInfo) (v : Nat) (o : List Byte) (s : State) : (takeFault c f i v o s).dec = s.dec := rfl
@[simp] theorem takeFault_compressEn (c : Byte) (f : FaultCode) (i : FaultInfo) (v : Nat) (o : List Byte) (s : State) : (takeFault c f i v o s).compressEn = s.compressEn := rfl
@[simp] theorem takeFault_lockOwner (c : Byte) (f : FaultCode) (i : FaultInfo) (v : Nat) (o : List Byte) (s : State) : (takeFault c f i v o s).lockOwner = s.lockOwner := rfl
@[simp] theorem takeFault_flog (c : Byte) (f : FaultCode) (i : FaultInfo) (v : Nat) (o : List Byte) (s : State) : (takeFault c f i v o s).flog = s.flog ++ [⟨s.issuer, c, f, i⟩] := rfl
@[simp] theorem takeFault_faultSeen (c : Byte) (f : FaultCode) (i : FaultInfo) (v : Nat) (o : List Byte) (s : State) : (takeFault c f i v o s).faultSeen = true := rfl
@[simp] theorem takeFault_issuer (c : Byte) (f : FaultCode) (i : FaultInfo) (v : Nat) (o : List Byte) (s : State) : (takeFault c f i v o s).issuer = s.issuer := rfl
@[simp] theorem takeFault_queueA0 (c : Byte) (f : FaultCode) (i : FaultInfo) (v : Nat) (o : List Byte) (s : State) : (takeFault c f i v o s).queueA0 = s.queueA0 := rfl
@[simp] theorem takeFault_queueA1 (c : Byte) (f : FaultCode) (i : FaultInfo) (v : Nat) (o : List Byte) (s : State) : (takeFault c f i v o s).queueA1 = s.queueA1 := rfl
@[simp] theorem takeFault_responses (c : Byte) (f : FaultCode) (i : FaultInfo) (v : Nat) (o : List Byte) (s : State) : (takeFault c f i v o s).responses = s.responses ++ [⟨s.issuer, faultByte f, v, o, false⟩] := rfl
@[simp] theorem takeFault_turns (c : Byte) (f : FaultCode) (i : FaultInfo) (v : Nat) (o : List Byte) (s : State) : (takeFault c f i v o s).turns = s.turns := rfl
@[simp] theorem takeFault_draws (c : Byte) (f : FaultCode) (i : FaultInfo) (v : Nat) (o : List Byte) (s : State) : (takeFault c f i v o s).draws = s.draws := rfl

@[simp] theorem takePrecise_cfg (c : Byte) (f : FaultCode) (i : FaultInfo) (s : State) : (takePrecise c f i s).cfg = s.cfg := rfl
@[simp] theorem takePrecise_rb (c : Byte) (f : FaultCode) (i : FaultInfo) (s : State) : (takePrecise c f i s).rb = s.rb := rfl
@[simp] theorem takePrecise_dec (c : Byte) (f : FaultCode) (i : FaultInfo) (s : State) : (takePrecise c f i s).dec = s.dec := rfl
@[simp] theorem takePrecise_compressEn (c : Byte) (f : FaultCode) (i : FaultInfo) (s : State) : (takePrecise c f i s).compressEn = s.compressEn := rfl
@[simp] theorem takePrecise_lockOwner (c : Byte) (f : FaultCode) (i : FaultInfo) (s : State) : (takePrecise c f i s).lockOwner = s.lockOwner := rfl
@[simp] theorem takePrecise_flog (c : Byte) (f : FaultCode) (i : FaultInfo) (s : State) : (takePrecise c f i s).flog = s.flog ++ [⟨s.issuer, c, f, i⟩] := rfl
@[simp] theorem takePrecise_faultSeen (c : Byte) (f : FaultCode) (i : FaultInfo) (s : State) : (takePrecise c f i s).faultSeen = true := rfl
@[simp] theorem takePrecise_issuer (c : Byte) (f : FaultCode) (i : FaultInfo) (s : State) : (takePrecise c f i s).issuer = s.issuer := rfl
@[simp] theorem takePrecise_queueA0 (c : Byte) (f : FaultCode) (i : FaultInfo) (s : State) : (takePrecise c f i s).queueA0 = s.queueA0 := rfl
@[simp] theorem takePrecise_queueA1 (c : Byte) (f : FaultCode) (i : FaultInfo) (s : State) : (takePrecise c f i s).queueA1 = s.queueA1 := rfl
@[simp] theorem takePrecise_responses (c : Byte) (f : FaultCode) (i : FaultInfo) (s : State) : (takePrecise c f i s).responses = s.responses ++ [⟨s.issuer, faultByte f, 0, [], false⟩] := rfl
@[simp] theorem takePrecise_turns (c : Byte) (f : FaultCode) (i : FaultInfo) (s : State) : (takePrecise c f i s).turns = s.turns := rfl
@[simp] theorem takePrecise_draws (c : Byte) (f : FaultCode) (i : FaultInfo) (s : State) : (takePrecise c f i s).draws = s.draws := rfl

@[simp] theorem resetConnection_cfg (s : State) : (resetConnection s).cfg = s.cfg := rfl
@[simp] theorem resetConnection_rb (s : State) : (resetConnection s).rb = reallocate s.rb s.cfg.initCapacity := rfl
@[simp] theorem resetConnection_dec (s : State) : (resetConnection s).dec = ⟨8, Config.freeCurrentByte s.draws, Config.freeBitMask s.draws, 0, .ready⟩ := rfl
@[simp] theorem resetConnection_compressEn (s : State) : (resetConnection s).compressEn = false := rfl
@[simp] theorem resetConnection_lockOwner (s : State) : (resetConnection s).lockOwner = s.lockOwner := rfl
@[simp] theorem resetConnection_flog (s : State) : (resetConnection s).flog = s.flog := rfl
@[simp] theorem resetConnection_faultSeen (s : State) : (resetConnection s).faultSeen = s.faultSeen := rfl
@[simp] theorem resetConnection_issuer (s : State) : (resetConnection s).issuer = s.issuer := rfl
@[simp] theorem resetConnection_queueA0 (s : State) : (resetConnection s).queueA0 = s.queueA0 := rfl
@[simp] theorem resetConnection_queueA1 (s : State) : (resetConnection s).queueA1 = s.queueA1 := rfl
@[simp] theorem resetConnection_responses (s : State) : (resetConnection s).responses = s.responses := rfl
@[simp] theorem resetConnection_turns (s : State) : (resetConnection s).turns = s.turns := rfl
@[simp] theorem resetConnection_draws (s : State) : (resetConnection s).draws = s.draws + 1 := rfl

@[simp] theorem overflowDecoder_cfg (s : State) : (overflowDecoder s).cfg = s.cfg := rfl
@[simp] theorem overflowDecoder_rb (s : State) : (overflowDecoder s).rb = s.rb := rfl
@[simp] theorem overflowDecoder_dec (s : State) : (overflowDecoder s).dec = ⟨Config.freeBitPosition s.draws, Config.freeCurrentByte s.draws, Config.freeBitMask s.draws, Config.freeTreeNode s.draws, .faulted⟩ := rfl
@[simp] theorem overflowDecoder_compressEn (s : State) : (overflowDecoder s).compressEn = s.compressEn := rfl
@[simp] theorem overflowDecoder_lockOwner (s : State) : (overflowDecoder s).lockOwner = s.lockOwner := rfl
@[simp] theorem overflowDecoder_flog (s : State) : (overflowDecoder s).flog = s.flog := rfl
@[simp] theorem overflowDecoder_faultSeen (s : State) : (overflowDecoder s).faultSeen = s.faultSeen := rfl
@[simp] theorem overflowDecoder_issuer (s : State) : (overflowDecoder s).issuer = s.issuer := rfl
@[simp] theorem overflowDecoder_queueA0 (s : State) : (overflowDecoder s).queueA0 = s.queueA0 := rfl
@[simp] theorem overflowDecoder_queueA1 (s : State) : (overflowDecoder s).queueA1 = s.queueA1 := rfl
@[simp] theorem overflowDecoder_responses (s : State) : (overflowDecoder s).responses = s.responses := rfl
@[simp] theorem overflowDecoder_turns (s : State) : (overflowDecoder s).turns = s.turns := rfl
@[simp] theorem overflowDecoder_draws (s : State) : (overflowDecoder s).draws = s.draws + 1 := rfl

@[simp] theorem setQueue_cfg (s : State) (a : Agent) (q : List Command) : (setQueue s a q).cfg = s.cfg := by cases a <;> rfl
@[simp] theorem setQueue_rb (s : State) (a : Agent) (q : List Command) : (setQueue s a q).rb = s.rb := by cases a <;> rfl
@[simp] theorem setQueue_dec (s : State) (a : Agent) (q : List Command) : (setQueue s a q).dec = s.dec := by cases a <;> rfl
@[simp] theorem setQueue_compressEn (s : State) (a : Agent) (q : List Command) : (setQueue s a q).compressEn = s.compressEn := by cases a <;> rfl
@[simp] theorem setQueue_lockOwner (s : State) (a : Agent) (q : List Command) : (setQueue s a q).lockOwner = s.lockOwner := by cases a <;> rfl
@[simp] theorem setQueue_flog (s : State) (a : Agent) (q : List Command) : (setQueue s a q).flog = s.flog := by cases a <;> rfl
@[simp] theorem setQueue_faultSeen (s : State) (a : Agent) (q : List Command) : (setQueue s a q).faultSeen = s.faultSeen := by cases a <;> rfl
@[simp] theorem setQueue_issuer (s : State) (a : Agent) (q : List Command) : (setQueue s a q).issuer = s.issuer := by cases a <;> rfl
@[simp] theorem setQueue_responses (s : State) (a : Agent) (q : List Command) : (setQueue s a q).responses = s.responses := by cases a <;> rfl
@[simp] theorem setQueue_turns (s : State) (a : Agent) (q : List Command) : (setQueue s a q).turns = s.turns := by cases a <;> rfl
@[simp] theorem setQueue_draws (s : State) (a : Agent) (q : List Command) : (setQueue s a q).draws = s.draws := by cases a <;> rfl
@[simp] theorem queueOf_setQueue_same (s : State) (a : Agent) (q : List Command) : queueOf (setQueue s a q) a = q := by cases a <;> rfl
theorem queueOf_setQueue_other (s : State) {a b : Agent} (q : List Command) (h : b ≠ a) : queueOf (setQueue s a q) b = queueOf s b := by
  cases a <;> cases b <;> first | rfl | exact absurd rfl h

@[simp] theorem spendTurn_cfg (s : State) : (spendTurn s).cfg = s.cfg := by unfold spendTurn; split <;> [(split <;> rfl); rfl]
@[simp] theorem spendTurn_rb (s : State) : (spendTurn s).rb = s.rb := by unfold spendTurn; split <;> [(split <;> rfl); rfl]
@[simp] theorem spendTurn_dec (s : State) : (spendTurn s).dec = s.dec := by unfold spendTurn; split <;> [(split <;> rfl); rfl]
@[simp] theorem spendTurn_compressEn (s : State) : (spendTurn s).compressEn = s.compressEn := by unfold spendTurn; split <;> [(split <;> rfl); rfl]
@[simp] theorem spendTurn_lockOwner (s : State) : (spendTurn s).lockOwner = s.lockOwner := by unfold spendTurn; split <;> [(split <;> rfl); rfl]
@[simp] theorem spendTurn_flog (s : State) : (spendTurn s).flog = s.flog := by unfold spendTurn; split <;> [(split <;> rfl); rfl]
@[simp] theorem spendTurn_faultSeen (s : State) : (spendTurn s).faultSeen = s.faultSeen := by unfold spendTurn; split <;> [(split <;> rfl); rfl]
@[simp] theorem spendTurn_issuer (s : State) : (spendTurn s).issuer = s.issuer := by unfold spendTurn; split <;> [(split <;> rfl); rfl]
@[simp] theorem spendTurn_queueA0 (s : State) : (spendTurn s).queueA0 = s.queueA0 := by unfold spendTurn; split <;> [(split <;> rfl); rfl]
@[simp] theorem spendTurn_queueA1 (s : State) : (spendTurn s).queueA1 = s.queueA1 := by unfold spendTurn; split <;> [(split <;> rfl); rfl]
@[simp] theorem spendTurn_responses (s : State) : (spendTurn s).responses = s.responses := by unfold spendTurn; split <;> [(split <;> rfl); rfl]

@[simp] theorem accept_cfg (s : State) (a : Agent) : (accept s a).cfg = s.cfg := by cases a <;> simp [accept]
@[simp] theorem accept_rb (s : State) (a : Agent) : (accept s a).rb = s.rb := by cases a <;> simp [accept]
@[simp] theorem accept_dec (s : State) (a : Agent) : (accept s a).dec = s.dec := by cases a <;> simp [accept]
@[simp] theorem accept_compressEn (s : State) (a : Agent) : (accept s a).compressEn = s.compressEn := by cases a <;> simp [accept]
@[simp] theorem accept_lockOwner (s : State) (a : Agent) : (accept s a).lockOwner = s.lockOwner := by cases a <;> simp [accept]
@[simp] theorem accept_flog (s : State) (a : Agent) : (accept s a).flog = s.flog := by cases a <;> simp [accept]
@[simp] theorem accept_faultSeen (s : State) (a : Agent) : (accept s a).faultSeen = s.faultSeen := by cases a <;> simp [accept]
@[simp] theorem accept_responses (s : State) (a : Agent) : (accept s a).responses = s.responses := by cases a <;> simp [accept]
@[simp] theorem accept_issuer (s : State) (a : Agent) : (accept s a).issuer = a := rfl

@[simp] theorem submit_cfg (a : Agent) (c : Command) (s : State) : (submit a c s).cfg = s.cfg := by cases a <;> rfl
@[simp] theorem submit_rb (a : Agent) (c : Command) (s : State) : (submit a c s).rb = s.rb := by cases a <;> rfl
@[simp] theorem submit_dec (a : Agent) (c : Command) (s : State) : (submit a c s).dec = s.dec := by cases a <;> rfl
@[simp] theorem submit_compressEn (a : Agent) (c : Command) (s : State) : (submit a c s).compressEn = s.compressEn := by cases a <;> rfl
@[simp] theorem submit_lockOwner (a : Agent) (c : Command) (s : State) : (submit a c s).lockOwner = s.lockOwner := by cases a <;> rfl
@[simp] theorem submit_flog (a : Agent) (c : Command) (s : State) : (submit a c s).flog = s.flog := by cases a <;> rfl
@[simp] theorem submit_faultSeen (a : Agent) (c : Command) (s : State) : (submit a c s).faultSeen = s.faultSeen := by cases a <;> rfl
@[simp] theorem submit_issuer (a : Agent) (c : Command) (s : State) : (submit a c s).issuer = s.issuer := by cases a <;> rfl
@[simp] theorem submit_responses (a : Agent) (c : Command) (s : State) : (submit a c s).responses = s.responses := by cases a <;> rfl
@[simp] theorem submit_turns (a : Agent) (c : Command) (s : State) : (submit a c s).turns = s.turns := by cases a <;> rfl
@[simp] theorem submit_draws (a : Agent) (c : Command) (s : State) : (submit a c s).draws = s.draws := by cases a <;> rfl

end Sys2Proof.Machine
end

