-- ==== Sys2Proof/Laws/Decoder.lean ====
section
/-! SUPPORT. The decoder: what using up a byte and decoding a chunk come to, in terms of the walk over the bits (Safety.lean). -/

namespace Sys2Proof.Machine

open Sys2Proof.Safety

/-! ### One byte -/

/-- The masked bit at cursor position p is bit 7-p (R41). -/
theorem masked_bit : ∀ (p : Fin 8) (b : Byte), ((b &&& ((0x80 : Byte) >>> p.val)) != 0) = b.getLsbD (7 - p.val) := by
  decide +kernel

theorem bitsOf_drop (b : Byte) (p : Fin 8) :
    (bitsOf b).drop p.val = b.getLsbD (7 - p.val) :: (bitsOf b).drop (p.val + 1) := by
  fin_cases p <;> rfl

/-- The cursor after all of a byte's bits have been read or dropped. -/
def spentByte (d : Decoder) (n : Fin treeNodes) (read : Nat) : Decoder :=
  { d with bitPosition := 8, bitMask := (0x80 : Byte) >>> read, treeNode := n }

/-- At a byte boundary there is nothing to use up. -/
theorem drainByte_boundary (t : Tree) (cap fuel : Nat) (d : Decoder) (out : List Byte) (h : d.bitPosition = 8) :
    drainByte t cap fuel d out = .consumed d out := by
  cases fuel <;> simp [drainByte, h]

/-- Using up a byte from cursor position p is a walk over its remaining bits: all symbols fit, or the call stops with the
ones that do (R93). -/
theorem drainByte_walk (t : Tree) (cap : Nat) (fuel : Nat) (d : Decoder) (out : List Byte)
    (hf : 8 - d.bitPosition.val ≤ fuel) (hm : d.bitMask = (0x80 : Byte) >>> d.bitPosition.val) (ho : out.length ≤ cap) :
    drainByte t cap fuel d out =
      if out.length + (walkBits t d.treeNode ((bitsOf d.currentByte).drop d.bitPosition.val)).2.length ≤ cap then
        .consumed
          (spentByte d (walkBits t d.treeNode ((bitsOf d.currentByte).drop d.bitPosition.val)).1
            (d.bitPosition.val + bitsRead t d.treeNode ((bitsOf d.currentByte).drop d.bitPosition.val)))
          (out ++ (walkBits t d.treeNode ((bitsOf d.currentByte).drop d.bitPosition.val)).2)
      else
        .overflow (out ++
          ((walkBits t d.treeNode ((bitsOf d.currentByte).drop d.bitPosition.val)).2.take (cap - out.length))) := by
  induction fuel generalizing d out with
  | zero =>
    have hp : d.bitPosition = 8 := Fin.ext (by show d.bitPosition.val = 8; have := d.bitPosition.isLt; omega)
    obtain ⟨p, cb, m, n, st⟩ := d
    subst hp
    simp_all [drainByte, bitsOf, walkBits, bitsRead, spentByte]
  | succ fuel ih =>
    by_cases hp : d.bitPosition = 8
    · obtain ⟨p, cb, m, n, st⟩ := d
      subst hp
      simp_all [drainByte, bitsOf, walkBits, bitsRead, spentByte]
    · have hlt : d.bitPosition.val < 8 := by
        have := d.bitPosition.isLt
        have : d.bitPosition.val ≠ 8 := fun e => hp (Fin.ext e)
        omega
      have hb : nextBit d = d.currentByte.getLsbD (7 - d.bitPosition.val) := by
        rw [nextBit, hm]; exact masked_bit ⟨_, hlt⟩ _
      have hd := bitsOf_drop d.currentByte ⟨_, hlt⟩
      have hs : (d.bitPosition + 1).val = d.bitPosition.val + 1 := by
        rw [Fin.val_add]; show (d.bitPosition.val + 1) % 9 = _; omega
      simp only at hd
      simp only [drainByte, if_neg hp, bitStep, hb, hd, walkBits, bitsRead]
      cases classify (treeEntry t d.treeNode (d.currentByte.getLsbD (7 - d.bitPosition.val))) with
      | sentinel =>
        have hsh : d.bitMask >>> 1 = (0x80 : Byte) >>> (d.bitPosition.val + 1) := by
          rw [hm, BitVec.shiftRight_add]
        simp [drainByte_boundary, ho, spentByte, shiftCursor, hsh]
      | leaf x =>
        by_cases hfull : out.length = cap
        · simp [hfull]
        · have := ih { shiftCursor d with treeNode := 0 } (out ++ [x])
            (by simp only [shiftCursor]; omega)
            (by simp only [shiftCursor]; rw [hs, hm, BitVec.shiftRight_add])
            (by simp; omega)
          simp only [shiftCursor, hs] at this
          simp only [if_neg hfull, shiftCursor, this, List.length_append, List.length_cons, List.length_nil]
          have e : cap - out.length = (cap - (out.length + 1)) + 1 := by omega
          by_cases hle : out.length + 1 + (walkBits t 0 ((bitsOf d.currentByte).drop (d.bitPosition.val + 1))).2.length ≤ cap
          · rw [if_pos (by omega), if_pos (by omega)]
            simp [spentByte, Nat.add_assoc, Nat.add_comm 1]
          · rw [if_neg (by omega), if_neg (by omega), e]
            simp
      | child m =>
        have := ih { shiftCursor d with treeNode := m } out
          (by simp only [shiftCursor]; omega)
          (by simp only [shiftCursor]; rw [hs, hm, BitVec.shiftRight_add]) ho
        simp only [shiftCursor, hs] at this
        simp only [shiftCursor, this]
        split <;> simp [spentByte, Nat.add_assoc, Nat.add_comm 1]

/-- A freshly loaded byte (R98) is walked from its first bit. -/
theorem drainByte_fetched (t : Tree) (cap : Nat) (b : Byte) (d : Decoder) (out : List Byte) (ho : out.length ≤ cap) :
    drainByte t cap 8 (fetchByte b d) out =
      if out.length + (walkBits t d.treeNode (bitsOf b)).2.length ≤ cap then
        .consumed (spentByte (fetchByte b d) (walkBits t d.treeNode (bitsOf b)).1 (bitsRead t d.treeNode (bitsOf b)))
          (out ++ (walkBits t d.treeNode (bitsOf b)).2)
      else .overflow (out ++ (walkBits t d.treeNode (bitsOf b)).2.take (cap - out.length)) := by
  have := drainByte_walk t cap 8 (fetchByte b d) out (by simp [fetchByte]) (by simp [fetchByte]) ho
  simpa [fetchByte] using this

/-! ### A chunk -/

/-- Decoding a chunk from a byte boundary is a walk over it: the symbols fit and the decoder stops at a byte boundary at the
node walked to, or the call stops with the symbols that fit (R93, R100, R103). -/
theorem decodeLoop_walk (t : Tree) (cap : Nat) (input : List Byte) (d : Decoder) (out : List Byte)
    (h8 : d.bitPosition = 8) (ho : out.length ≤ cap) :
    (out.length + (walkBytes t d.treeNode input).2.length ≤ cap ∧
      ∃ d', decodeLoop t cap input d out = .consumed d' (out ++ (walkBytes t d.treeNode input).2) ∧
        d'.bitPosition = 8 ∧ d'.treeNode = (walkBytes t d.treeNode input).1 ∧ d'.dstate = d.dstate) ∨
    (cap < out.length + (walkBytes t d.treeNode input).2.length ∧
      decodeLoop t cap input d out =
        .overflow (out ++ (walkBytes t d.treeNode input).2.take (cap - out.length))) := by
  induction input generalizing d out with
  | nil => exact .inl ⟨by simpa [walkBytes] using ho, d, by simp [decodeLoop, drainByte_boundary, h8, walkBytes], h8, rfl, rfl⟩
  | cons b bs ih =>
    obtain ⟨p, cb, m, n, st⟩ := d
    simp only at h8
    subst h8
    -- the first byte is fetched at the boundary, then used up
    cases bs with
    | nil =>
      simp only [decodeLoop, drainByte_boundary, drainByte_fetched t cap b _ out ho, walkBytes, List.append_nil]
      split
      · rename_i hle
        exact .inl ⟨hle, _, rfl, rfl, rfl, rfl⟩
      · rename_i hle
        exact .inr ⟨by omega, rfl⟩
    | cons c cs =>
      rw [decodeLoop, drainByte_boundary _ _ _ _ _ rfl]
      simp only
      rw [decodeLoop, drainByte_fetched t cap b _ out ho]
      by_cases hle : out.length + (walkBits t n (bitsOf b)).2.length ≤ cap
      · simp only [if_pos hle]
        have := ih (spentByte (fetchByte b ⟨8, cb, m, n, st⟩) (walkBits t n (bitsOf b)).1 (bitsRead t n (bitsOf b)))
          (out ++ (walkBits t n (bitsOf b)).2) rfl (by simpa using hle)
        rw [decodeLoop, drainByte_boundary _ _ _ _ _ rfl] at this
        rw [show walkBytes t n (b :: c :: cs) = ((walkBytes t (walkBits t n (bitsOf b)).1 (c :: cs)).1,
          (walkBits t n (bitsOf b)).2 ++ (walkBytes t (walkBits t n (bitsOf b)).1 (c :: cs)).2) from rfl]
        simp only [List.length_append, List.append_assoc] at this ⊢
        rcases this with ⟨h1, h2⟩ | ⟨h1, h2⟩
        · exact .inl ⟨by simpa [spentByte, Nat.add_assoc] using h1, by simpa [spentByte, fetchByte] using h2⟩
        · refine .inr ⟨by simpa [spentByte, Nat.add_assoc] using h1, ?_⟩
          simp only [spentByte] at h2 ⊢
          rw [h2, List.take_append, List.take_of_length_le (l := (walkBits t n (bitsOf b)).2) (by omega), Nat.sub_sub]
      · refine .inr ⟨?_, ?_⟩
        · simp only [walkBytes, List.length_append] at *; omega
        · simp only [if_neg hle]
          rw [show walkBytes t n (b :: c :: cs) = ((walkBytes t (walkBits t n (bitsOf b)).1 (c :: cs)).1,
            (walkBits t n (bitsOf b)).2 ++ (walkBytes t (walkBits t n (bitsOf b)).1 (c :: cs)).2) from rfl]
          rw [List.take_append_of_le_length (by omega)]

/-- Everything `Decompress` can do from a byte boundary (R95, R100, R103, R106). -/
theorem decompress_spec (t : Tree) (input : List Byte) (cap : Nat) (d : Decoder) (hb : BoundaryInv d) :
    (d.dstate = .faulted ∧ decompress t input cap d = .faulted) ∨
    (d.dstate = .ready ∧ (walkBytes t d.treeNode input).2.length ≤ cap ∧
      ∃ d', decompress t input cap d = .done d' (walkBytes t d.treeNode input).2 ∧
        d'.bitPosition = 8 ∧ d'.treeNode = (walkBytes t d.treeNode input).1 ∧ d'.dstate = .ready) ∨
    (d.dstate = .ready ∧ cap < (walkBytes t d.treeNode input).2.length ∧
      decompress t input cap d = .overflow ((walkBytes t d.treeNode input).2.take cap)) := by
  unfold decompress
  cases hs : d.dstate with
  | faulted => exact .inl ⟨rfl, rfl⟩
  | ready =>
    rcases decodeLoop_walk t cap input d [] (hb hs) (Nat.zero_le _) with ⟨h1, d', h2, h3, h4, h5⟩ | ⟨h1, h2⟩
    · exact .inr (.inl ⟨rfl, by simpa using h1, d', by rw [h2]; simp, h3, h4, h5.trans hs⟩)
    · exact .inr (.inr ⟨rfl, by simpa using h1, by rw [h2]; simp⟩)

/-- A faulted decoder decodes nothing, whatever its cursor (R100, R106). -/
theorem decompress_faulted (t : Tree) (input : List Byte) (cap : Nat) (d : Decoder) (h : d.dstate = .faulted) :
    decompress t input cap d = .faulted := by simp [decompress, h]

/-! ### Calls in a row (R96, R104) -/

/-- Enough bit steps end at a byte boundary. -/
theorem drainByte_ends (t : Tree) (cap fuel : Nat) (d d' : Decoder) (out out' : List Byte)
    (hf : 8 - d.bitPosition.val ≤ fuel) (h : drainByte t cap fuel d out = .consumed d' out') : d'.bitPosition = 8 := by
  induction fuel generalizing d out with
  | zero =>
    simp only [drainByte, Decoding.consumed.injEq] at h
    obtain ⟨rfl, -⟩ := h
    exact Fin.ext (by show d.bitPosition.val = 8; have := d.bitPosition.isLt; omega)
  | succ fuel ih =>
    by_cases hp : d.bitPosition = 8
    · simp only [drainByte, if_pos hp, Decoding.consumed.injEq] at h
      exact h.1 ▸ hp
    · have hs : (d.bitPosition + 1).val = d.bitPosition.val + 1 := by
        have := d.bitPosition.isLt
        have : d.bitPosition.val ≠ 8 := fun e => hp (Fin.ext e)
        rw [Fin.val_add]; show (d.bitPosition.val + 1) % 9 = _; omega
      simp only [drainByte, if_neg hp, bitStep] at h
      cases hc : classify (treeEntry t d.treeNode (nextBit d)) with
      | sentinel =>
        simp only [hc] at h
        exact ih _ _ (by simp) h
      | leaf x =>
        simp only [hc] at h
        split at h
        · exact absurd h (by simp)
        · rename_i heq
          split at heq
          · exact absurd heq (by simp)
          · cases heq; exact ih _ _ (by simp only [shiftCursor]; omega) h
      | child n =>
        simp only [hc] at h
        exact ih _ _ (by simp only [shiftCursor]; omega) h

theorem drainByte_eight_ends {t : Tree} {cap : Nat} {d d' : Decoder} {out out' : List Byte}
    (h : drainByte t cap 8 d out = .consumed d' out') : d'.bitPosition = 8 :=
  drainByte_ends t cap 8 d d' out out' (by omega) h

/-- One chunk after another is their concatenation, where the first is consumed. -/
theorem decodeLoop_append {t : Tree} {cap : Nat} {x : List Byte} (y : List Byte) {d d' : Decoder} {out out' : List Byte}
    (h : decodeLoop t cap x d out = .consumed d' out') :
    decodeLoop t cap (x ++ y) d out = decodeLoop t cap y d' out' := by
  induction x generalizing d out with
  | nil =>
    have h : drainByte t cap 8 d out = .consumed d' out' := h
    have h8 := drainByte_eight_ends h
    cases y with
    | nil => simp [decodeLoop, h, drainByte_boundary _ _ _ _ _ h8]
    | cons c cs => simp [decodeLoop, h, drainByte_boundary _ _ _ _ _ h8]
  | cons b bs ih =>
    simp only [decodeLoop, List.cons_append] at h ⊢
    split at h
    · exact absurd h (by simp)
    · simpa using ih h

/-- A byte used up without overflow gives the same symbols behind any other output with room for them. -/
theorem drainByte_shift (t : Tree) (cap fuel : Nat) (d d' : Decoder) (out out' : List Byte)
    (h : drainByte t cap fuel d out = .consumed d' out') :
    ∃ o, out' = out ++ o ∧ ∀ cap2 out2, out2.length + o.length ≤ cap2 →
      drainByte t cap2 fuel d out2 = .consumed d' (out2 ++ o) := by
  induction fuel generalizing d out with
  | zero =>
    simp only [drainByte, Decoding.consumed.injEq] at h
    obtain ⟨rfl, rfl⟩ := h
    exact ⟨[], by simp, by simp [drainByte]⟩
  | succ fuel ih =>
    by_cases hp : d.bitPosition = 8
    · simp only [drainByte, if_pos hp, Decoding.consumed.injEq] at h
      obtain ⟨rfl, rfl⟩ := h
      exact ⟨[], by simp, by simp [drainByte, hp]⟩
    · simp only [drainByte, if_neg hp, bitStep] at h ⊢
      cases hc : classify (treeEntry t d.treeNode (nextBit d)) with
      | sentinel =>
        simp only [hc] at h ⊢
        exact ih _ _ h
      | child n =>
        simp only [hc] at h ⊢
        exact ih _ _ h
      | leaf x =>
        by_cases hfull : out.length = cap
        · simp [hc, hfull] at h
        · simp only [hc, if_neg hfull] at h
          obtain ⟨o, rfl, ho⟩ := ih _ _ h
          refine ⟨x :: o, by simp, fun cap2 out2 hle => ?_⟩
          have hne : ¬ out2.length = cap2 := by simp at hle; omega
          have := ho cap2 (out2 ++ [x]) (by simp at hle ⊢; omega)
          simp only [if_neg hne, this, List.append_assoc, List.cons_append, List.nil_append]

/-- The same for a chunk. -/
theorem decodeLoop_shift (t : Tree) (cap : Nat) (x : List Byte) (d d' : Decoder) (out out' : List Byte)
    (h : decodeLoop t cap x d out = .consumed d' out') :
    ∃ o, out' = out ++ o ∧ ∀ cap2 out2, out2.length + o.length ≤ cap2 →
      decodeLoop t cap2 x d out2 = .consumed d' (out2 ++ o) := by
  induction x generalizing d out with
  | nil => exact drainByte_shift t cap 8 d d' out out' h
  | cons b bs ih =>
    simp only [decodeLoop] at h ⊢
    split at h
    · exact absurd h (by simp)
    · rename_i d1 out1 h1
      obtain ⟨o1, rfl, ho1⟩ := drainByte_shift _ _ _ _ _ _ _ h1
      obtain ⟨o2, rfl, ho2⟩ := ih _ _ h
      refine ⟨o1 ++ o2, by simp, fun cap2 out2 hle => ?_⟩
      rw [ho1 cap2 out2 (by simp at hle; omega)]
      simpa using ho2 cap2 (out2 ++ o1) (by simp at hle ⊢; omega)

/-! ### Padding (R91, R105) -/

/-- The walk over a byte reads no bit after a sentinel. -/
theorem walkBits_read (t : Tree) (n : Fin treeNodes) (bs cs : List Bool) (hl : bs.length = cs.length)
    (h : bs.take (bitsRead t n bs) = cs.take (bitsRead t n bs)) :
    walkBits t n bs = walkBits t n cs ∧ bitsRead t n bs = bitsRead t n cs := by
  induction bs generalizing n cs with
  | nil => cases cs <;> simp_all
  | cons b bs ih =>
    cases cs with
    | nil => simp at hl
    | cons c cs =>
      have hl' : bs.length = cs.length := by simpa using hl
      simp only [bitsRead] at h
      have hbc : b = c := by
        cases hc : classify (treeEntry t n b) <;> simp [hc] at h <;> first | exact h | exact h.1
      subst hbc
      cases hc : classify (treeEntry t n b) with
      | sentinel => simp [walkBits, bitsRead, hc]
      | leaf x =>
        have := ih 0 cs hl' (by simpa [hc] using h)
        simp [walkBits, bitsRead, hc, this]
      | child m =>
        have := ih m cs hl' (by simpa [hc] using h)
        simp [walkBits, bitsRead, hc, this]

end Sys2Proof.Machine
end

