-- ==== Sys2Proof/Laws/Memory.lean ====
section
/-! SUPPORT. Storage: read after write, the canonical form, and what a run of byte writes leaves. -/

namespace Sys2Proof.Machine

theorem Memory.read_write (m : Memory) (a c : Nat) (b : Byte) (h : m.wf) :
    (m.write a b).read c = if c = a then some b else m.read c := by
  induction m with
  | nil => simp [Memory.write, Memory.read, eq_comm]
  | cons x m ih =>
    obtain ⟨x, v⟩ := x
    have ih := ih (List.pairwise_cons.1 h).2
    have hx := (List.pairwise_cons.1 h).1
    simp only [Memory.write]
    split
    · simp [Memory.read, eq_comm]
    · split
      · subst_vars
        by_cases hc : c = x
        · simp [Memory.read, hc]
        · simp [Memory.read, hc, Ne.symm hc]
      · by_cases hcx : c = x
        · subst hcx
          have : ¬ c = a := by omega
          simp [Memory.read, this]
        · have : ¬ x = c := fun e => hcx e.symm
          simp [Memory.read, this, ih]

theorem Memory.write_keys (m : Memory) (a : Nat) (b : Byte) (y : Host.Cell) (hy : y ∈ m.write a b) :
    y = (a, b) ∨ y ∈ m := by
  induction m with
  | nil => simpa [Memory.write] using hy
  | cons x m ih =>
    obtain ⟨x, v⟩ := x
    simp only [Memory.write] at hy
    split at hy
    · simpa using hy
    · split at hy
      · rcases List.mem_cons.1 hy with h | h
        · exact .inl h
        · exact .inr (List.mem_cons_of_mem _ h)
      · rcases List.mem_cons.1 hy with h | h
        · exact .inr (h ▸ List.mem_cons_self)
        · exact (ih h).imp id (List.mem_cons_of_mem _)

theorem Memory.write_wf (m : Memory) (a : Nat) (b : Byte) (h : m.wf) : (m.write a b).wf := by
  induction m with
  | nil => simp [Memory.write, Memory.wf]
  | cons x m ih =>
    obtain ⟨x, v⟩ := x
    obtain ⟨hx, hm⟩ := List.pairwise_cons.1 h
    simp only [Memory.write]
    split
    · refine List.pairwise_cons.2 ⟨fun y hy => ?_, h⟩
      rcases List.mem_cons.1 hy with rfl | hy
      · assumption
      · exact Nat.lt_trans (by assumption) (hx y hy)
    · split
      · subst_vars; exact List.pairwise_cons.2 ⟨hx, hm⟩
      · refine List.pairwise_cons.2 ⟨fun y hy => ?_, ih hm⟩
        rcases Memory.write_keys m a b y hy with rfl | hy
        · show x < a; omega
        · exact hx y hy

theorem Memory.writeBytes_wf (m : Memory) (cap start : Nat) (bs : List Byte) (h : m.wf) :
    (m.writeBytes cap start bs).wf := by
  induction bs generalizing m start with
  | nil => exact h
  | cons b bs ih => exact ih _ _ (Memory.write_wf _ _ _ h)

theorem Memory.writeBytes_inside (m : Memory) (cap start : Nat) (bs : List Byte) (hcap : 0 < cap)
    (h : ∀ x ∈ m, x.1 < cap) : ∀ x ∈ m.writeBytes cap start bs, x.1 < cap := by
  induction bs generalizing m start with
  | nil => exact h
  | cons b bs ih =>
    refine ih _ _ (fun x hx => ?_)
    rcases Memory.write_keys _ _ _ _ hx with rfl | hx
    · exact Nat.mod_lt _ hcap
    · exact h x hx

/-- A byte outside the addresses written keeps its value. -/
theorem Memory.read_writeBytes_other (m : Memory) (cap start : Nat) (bs : List Byte) (a : Nat) (hm : m.wf)
    (h : ∀ k, k < bs.length → a ≠ (start + k) % cap) : (m.writeBytes cap start bs).read a = m.read a := by
  induction bs generalizing m start with
  | nil => rfl
  | cons b bs ih =>
    have h0 : a ≠ start % cap := by simpa using h 0 (by simp)
    rw [Memory.writeBytes, ih _ _ (Memory.write_wf _ _ _ hm), Memory.read_write _ _ _ _ hm, if_neg h0]
    intro k hk
    have := h (k + 1) (by simpa using hk)
    rwa [show start + (k + 1) = start + 1 + k by omega] at this

theorem add_mod_ne {s j k cap : Nat} (h : j < k) (hk : k < j + cap) : (s + j) % cap ≠ (s + k) % cap := by
  intro e
  have h0 := Nat.sub_mod_eq_zero_of_mod_eq e.symm
  rw [show s + k - (s + j) = k - j by omega, Nat.mod_eq_of_lt (by omega)] at h0
  omega

/-- Bytes written to at most `cap` consecutive addresses are all there afterwards (R42). -/
theorem Memory.read_writeBytes_at (m : Memory) (cap start : Nat) (bs : List Byte) (hm : m.wf) (hn : bs.length ≤ cap)
    (k : Nat) (hk : k < bs.length) : (m.writeBytes cap start bs).read ((start + k) % cap) = some bs[k] := by
  induction bs generalizing m start k with
  | nil => simp at hk
  | cons b bs ih =>
    simp only [List.length_cons] at hn hk
    cases k with
    | zero =>
      rw [Memory.writeBytes, Memory.read_writeBytes_other _ _ _ _ _ (Memory.write_wf _ _ _ hm),
        Memory.read_write _ _ _ _ hm]
      · simp
      · intro k hk
        rw [show start + 1 + k = start + (k + 1) by omega]
        exact add_mod_ne (by omega) (by omega)
    | succ k =>
      have := ih (m.write (start % cap) b) (start + 1) (Memory.write_wf _ _ _ hm) (by omega) k (by omega)
      rw [show start + 1 + k = start + (k + 1) by omega] at this
      simpa [Memory.writeBytes] using this

end Sys2Proof.Machine
end

