-- ==== Sys2Proof/Laws/Ring.lean ====
section
/-! SUPPORT. The ring's shared procedures: what each can do, once, and that each keeps the ring invariant. -/

namespace Sys2Proof.Machine

open Sys2Proof.Safety

/-! ### The array of `capacity` bytes (R21) -/

theorem storageByte_of_read {rb : Ring} {a : Nat} {b : Byte} (h : rb.storage.read a = some b) : storageByte rb a = b := by
  simp [storageByte, h]

theorem storageByte_of_unwritten {rb : Ring} {a : Nat} (h : rb.storage.read a = none) :
    storageByte rb a = Config.freeStorageByte rb.allocation a := by simp [storageByte, h]

/-- A byte depends on nothing but the written bytes and the allocation. -/
theorem storageByte_congr {r q : Ring} {a : Nat} (h : r.storage.read a = q.storage.read a)
    (ha : r.allocation = q.allocation) : storageByte r a = storageByte q a := by simp [storageByte, h, ha]

theorem memRead_of_lt {rb : Ring} {a : Nat} (h : a < rb.capacity) : memRead rb a = .ok (storageByte rb a) := if_pos h

theorem memRead_of_le {rb : Ring} {a : Nat} (h : rb.capacity ≤ a) : memRead rb a = .error (.noSuchAddress a) :=
  if_neg (Nat.not_lt.2 h)

theorem memRead_ok_iff (rb : Ring) (a : Nat) (b : Byte) :
    memRead rb a = .ok b ↔ a < rb.capacity ∧ storageByte rb a = b := by
  unfold memRead
  split <;> simp_all

@[simp] theorem reallocate_capacity (rb : Ring) (n : Nat) : (reallocate rb n).capacity = n := rfl
@[simp] theorem reallocate_head (rb : Ring) (n : Nat) : (reallocate rb n).head = 0 := rfl
@[simp] theorem reallocate_tail (rb : Ring) (n : Nat) : (reallocate rb n).tail = 0 := rfl
@[simp] theorem reallocate_length (rb : Ring) (n : Nat) : (reallocate rb n).length = 0 := rfl
@[simp] theorem reallocate_storage (rb : Ring) (n : Nat) : (reallocate rb n).storage = [] := rfl
@[simp] theorem reallocate_allocation (rb : Ring) (n : Nat) : (reallocate rb n).allocation = rb.allocation + 1 := rfl

/-! Only growth and CONN_RST allocate. -/

@[simp] theorem append_allocation (rb : Ring) (data : List Byte) : (append rb data).allocation = rb.allocation := rfl
@[simp] theorem clearRing_allocation (rb : Ring) : (clearRing rb).allocation = rb.allocation := rfl
@[simp] theorem consume_allocation (rb : Ring) (n : Nat) : (consume rb n).allocation = rb.allocation := by
  unfold consume; split <;> [rfl; (split <;> rfl)]

/-! ### Reading lists of bytes -/

theorem readAll_ok_iff (rb : Ring) (as : List Nat) (bs : List Byte) :
    readAll rb as = .ok bs ↔ as.map (memRead rb) = bs.map .ok := by
  induction as generalizing bs with
  | nil => cases bs <;> simp [readAll]
  | cons a as ih =>
    simp only [readAll, List.map_cons]
    cases h : memRead rb a with
    | error f => cases bs <;> simp
    | ok b =>
      cases bs with
      | nil => cases readAll rb as <;> simp
      | cons c cs =>
        have := ih cs
        cases h' : readAll rb as <;> simp_all

/-- A list of reads answers its bytes exactly when each read answers its byte. -/
theorem readAll_range_ok_iff (rb : Ring) (n : Nat) (addr : Nat → Nat) (bs : List Byte) :
    readAll rb ((List.range n).map addr) = .ok bs ↔
      bs.length = n ∧ ∀ k (h : k < bs.length), memRead rb (addr k) = .ok bs[k] := by
  rw [readAll_ok_iff, List.map_map]
  constructor
  · intro h
    have hl : bs.length = n := by simpa using (congrArg List.length h).symm
    refine ⟨hl, fun k hk => ?_⟩
    have := congrArg (fun l => l[k]?) h
    simpa [hk, hl ▸ hk] using this
  · rintro ⟨rfl, h⟩
    exact List.ext_getElem (by simp) (fun k h1 h2 => by simpa using h k (by simpa using h2))

theorem readLive_ok_iff (rb : Ring) (n : Nat) (bs : List Byte) :
    readLive rb n = .ok bs ↔ bs.length = n ∧ ∀ k (h : k < bs.length), memRead rb (liveAddress rb k) = .ok bs[k] :=
  readAll_range_ok_iff rb n (liveAddress rb) bs

theorem readSegment_ok_iff (rb : Ring) (n : Nat) (bs : List Byte) :
    readSegment rb n = .ok bs ↔ bs.length = n ∧ ∀ k (h : k < bs.length), memRead rb (rb.head + k) = .ok bs[k] :=
  readAll_range_ok_iff rb n (fun k => rb.head + k) bs

theorem liveAddress_lt {rb : Ring} (h : 0 < rb.capacity) (k : Nat) : liveAddress rb k < rb.capacity := Nat.mod_lt _ h

/-- Reading fewer live bytes gives the oldest of them. -/
theorem readLive_take {rb : Ring} {n : Nat} {bs : List Byte} (h : readLive rb n = .ok bs) {m : Nat} (hm : m ≤ n) :
    readLive rb m = .ok (bs.take m) := by
  rw [readLive_ok_iff] at h ⊢
  obtain ⟨rfl, h⟩ := h
  exact ⟨by simpa using hm, fun k hk => by simpa using h k (by simp at hk; omega)⟩

/-- Where there is any storage, what the live bytes read as (R21: every byte of the array has a value). -/
theorem contents_of_capacity_pos {rb : Ring} (h : 0 < rb.capacity) :
    contents rb = .ok ((List.range rb.length).map fun k => storageByte rb (liveAddress rb k)) :=
  (readLive_ok_iff _ _ _).2 ⟨by simp, fun k _ => by simpa using memRead_of_lt (liveAddress_lt h k)⟩

/-- Under the ring invariant the live bytes can be read. -/
theorem contents_of_inv {c : Config} {rb : Ring} (h : RingInv c rb) : ∃ xs, contents rb = .ok xs :=
  ⟨_, contents_of_capacity_pos h.capacity_pos⟩

theorem contents_length {rb : Ring} {xs : List Byte} (h : contents rb = .ok xs) : xs.length = rb.length :=
  ((readLive_ok_iff _ _ _).1 h).1

/-- The `cnt` oldest live bytes, as RB_DEQ reads them. -/
theorem readLive_contents {rb : Ring} {xs : List Byte} (h : contents rb = .ok xs) {n : Nat} (hn : n ≤ rb.length) :
    readLive rb n = .ok (xs.take n) := readLive_take h hn

/-- One live byte (R73). -/
theorem live_contents {rb : Ring} {xs : List Byte} (h : contents rb = .ok xs) {k : Nat} (hk : k < xs.length) :
    live rb k = .ok xs[k] := ((readLive_ok_iff _ _ _).1 h).2 k hk

/-- A segment that stays below the capacity is the oldest live bytes (R80). -/
theorem readSegment_contents {rb : Ring} {xs : List Byte} (h : contents rb = .ok xs) {n : Nat} (hn : n ≤ rb.length)
    (hw : n ≤ rb.capacity - rb.head) : readSegment rb n = .ok (xs.take n) := by
  obtain ⟨hl, h⟩ := (readLive_ok_iff _ _ _).1 h
  refine (readSegment_ok_iff _ _ _).2 ⟨by simp; omega, fun k hk => ?_⟩
  have hk' : k < n := by simp at hk; omega
  have := h k (by omega)
  rw [liveAddress, Nat.mod_eq_of_lt (by omega)] at this
  simpa using this

/-! ### Append (R72) -/

theorem append_liveAddress_old {c : Config} {rb : Ring} (h : RingInv c rb) {data : List Byte}
    (hfit : rb.length + data.length ≤ rb.capacity) {k : Nat} (hk : k < rb.length) {j : Nat} (hj : j < data.length) :
    liveAddress rb k ≠ (rb.tail + j) % rb.capacity := by
  rw [h.tail_eq, liveAddress, Nat.mod_add_mod, Nat.add_assoc]
  exact add_mod_ne (by omega) (by omega)

theorem append_read_new {rb : Ring} (hw : rb.storage.wf) {data : List Byte} (hn : data.length ≤ rb.capacity) (j : Nat)
    (hj : j < data.length) : (append rb data).storage.read ((rb.tail + j) % rb.capacity) = some data[j] :=
  Memory.read_writeBytes_at _ _ _ _ hw hn j hj

theorem append_read_other {rb : Ring} (hw : rb.storage.wf) {data : List Byte} {a : Nat}
    (ha : ∀ j, j < data.length → a ≠ (rb.tail + j) % rb.capacity) : (append rb data).storage.read a = rb.storage.read a :=
  Memory.read_writeBytes_other _ _ _ _ _ hw ha

theorem append_storageByte_new {rb : Ring} (hw : rb.storage.wf) {data : List Byte} (hn : data.length ≤ rb.capacity) (j : Nat)
    (hj : j < data.length) : storageByte (append rb data) ((rb.tail + j) % rb.capacity) = data[j] :=
  storageByte_of_read (append_read_new hw hn j hj)

theorem append_storageByte_other {rb : Ring} (hw : rb.storage.wf) {data : List Byte} {a : Nat}
    (ha : ∀ j, j < data.length → a ≠ (rb.tail + j) % rb.capacity) : storageByte (append rb data) a = storageByte rb a :=
  storageByte_congr (append_read_other hw ha) rfl

/-- Where the k-th live byte lies after an append, for one that is new. -/
theorem append_liveAddress_new {c : Config} {rb : Ring} (h : RingInv c rb) {k : Nat} (hk : rb.length ≤ k) :
    liveAddress rb k = (rb.tail + (k - rb.length)) % rb.capacity := by
  rw [h.tail_eq, Nat.mod_add_mod, liveAddress]
  congr 1; omega

/-- The live bytes after an append are the old ones and then the new ones (R42, R72). -/
theorem contents_append {c : Config} {rb : Ring} (h : RingInv c rb) {xs data : List Byte} (hx : contents rb = .ok xs)
    (hfit : rb.length + data.length ≤ rb.capacity) : contents (append rb data) = .ok (xs ++ data) := by
  obtain ⟨hl, hx⟩ := (readLive_ok_iff _ _ _).1 hx
  refine (readLive_ok_iff _ _ _).2 ⟨by simp [append, hl], fun k hk => ?_⟩
  rw [memRead_ok_iff]
  refine ⟨liveAddress_lt h.capacity_pos k, ?_⟩
  have hla : liveAddress (append rb data) k = liveAddress rb k := rfl
  rw [hla]
  by_cases hk' : k < rb.length
  · rw [append_storageByte_other h.canonical (fun j hj => append_liveAddress_old h hfit hk' hj),
      List.getElem_append_left (by omega)]
    exact ((memRead_ok_iff _ _ _).1 (hx k (by omega))).2
  · have hj : k - rb.length < data.length := by simp at hk; omega
    rw [append_liveAddress_new h (by omega), append_storageByte_new h.canonical (by omega) _ hj,
      List.getElem_append_right (by omega)]
    simp [hl]

theorem append_inv {c : Config} {rb : Ring} (h : RingInv c rb) {data : List Byte}
    (hfit : rb.length + data.length ≤ rb.capacity) : RingInv c (append rb data) where
  capacity_pos := h.capacity_pos
  capacity_max := h.capacity_max
  length_le := hfit
  head_lt := h.head_lt
  tail_lt := Nat.mod_lt _ h.capacity_pos
  tail_eq := by
    show (rb.tail + data.length) % rb.capacity = (rb.head + (rb.length + data.length)) % rb.capacity
    rw [h.tail_eq, Nat.mod_add_mod, Nat.add_assoc]
  normal := by
    intro h0
    have h0 : rb.length + data.length = 0 := h0
    obtain ⟨hh, ht⟩ := h.normal (by omega)
    exact ⟨hh, by show (rb.tail + data.length) % rb.capacity = 0; rw [ht, show data.length = 0 by omega]; simp⟩
  canonical := Memory.writeBytes_wf _ _ _ _ h.canonical
  inside := Memory.writeBytes_inside _ _ _ _ h.capacity_pos h.inside
  written := by
    intro k hk
    have hk : k < rb.length + data.length := hk
    show ((append rb data).storage.read (liveAddress rb k)).isSome = true
    by_cases hk' : k < rb.length
    · rw [append_read_other h.canonical (fun j hj => append_liveAddress_old h hfit hk' hj)]
      exact h.written k hk'
    · rw [append_liveAddress_new h (by omega), append_read_new h.canonical (by omega) _ (by omega)]
      rfl

/-! ### Growth (R69, R70) -/

theorem le_grownCapacity (n : Nat) : n ≤ grownCapacity n := by
  unfold grownCapacity ceilDiv growQuantum; omega

theorem grownCapacity_dvd (n : Nat) : growQuantum ∣ grownCapacity n := ⟨_, Nat.mul_comm _ _⟩

/-- Growth takes the least multiple of the quantum that is enough (R70). -/
theorem grownCapacity_least (n m : Nat) (hd : growQuantum ∣ m) (hm : n ≤ m) : grownCapacity n ≤ m := by
  obtain ⟨q, rfl⟩ := hd
  unfold grownCapacity ceilDiv growQuantum at *; omega

/-- What growth answers: the live bytes at addresses 0 onward of the next allocation (R69). -/
theorem grow_spec {c : Config} {rb : Ring} {xs : List Byte} (hx : contents rb = .ok xs) {newCap : Nat}
    (hcap : rb.length < newCap) (hmax : c.exceedsMax newCap = false) :
    ∃ r, grow rb newCap = .ok r ∧ r.capacity = newCap ∧ r.head = 0 ∧ r.tail = rb.length ∧ r.length = rb.length ∧
      r.allocation = rb.allocation + 1 ∧ contents r = .ok xs ∧ RingInv c r := by
  have hl := contents_length hx
  have hr : readLive rb rb.length = .ok xs := hx
  refine ⟨⟨newCap, 0, rb.length, rb.length, Memory.writeBytes [] newCap 0 xs, rb.allocation + 1⟩,
    by simp [grow, hr, reallocate], rfl, rfl, rfl, rfl, rfl, ?_⟩
  have hw : ∀ k (h : k < xs.length), Memory.read (Memory.writeBytes [] newCap 0 xs) ((0 + k) % newCap) = some xs[k] :=
    Memory.read_writeBytes_at [] newCap 0 xs List.Pairwise.nil (by omega)
  refine ⟨(readLive_ok_iff _ _ _).2 ⟨hl, fun k hk => (memRead_ok_iff _ _ _).2
    ⟨Nat.mod_lt _ (by show 0 < newCap; omega), storageByte_of_read (hw k hk)⟩⟩, ?_⟩
  exact {
    capacity_pos := by show 1 ≤ newCap; omega
    capacity_max := hmax
    length_le := Nat.le_of_lt hcap
    head_lt := by show 0 < newCap; omega
    tail_lt := hcap
    tail_eq := by show rb.length = (0 + rb.length) % newCap; rw [Nat.zero_add, Nat.mod_eq_of_lt hcap]
    normal := fun h0 => ⟨rfl, h0⟩
    canonical := Memory.writeBytes_wf _ _ _ _ List.Pairwise.nil
    inside := Memory.writeBytes_inside _ _ _ _ (by omega) (by simp)
    written := fun k hk => Option.isSome_iff_exists.2 ⟨_, hw k (by rw [hl]; exact hk)⟩ }

/-- Growth of a ring with any storage never stops, whatever its bytes. -/
theorem grow_of_capacity_pos {rb : Ring} (h : 0 < rb.capacity) (n : Nat) : ∃ r, grow rb n = .ok r := by
  have hc : readLive rb rb.length = .ok _ := contents_of_capacity_pos h
  simp [grow, hc]

/-! ### Room (R70, R71) -/

theorem mustGrow_iff (rb : Ring) (n : Nat) : mustGrow rb n = true ↔ 0 < n ∧ rb.capacity < rb.length + n := by
  simp [mustGrow]

/-- The capacity after room has been made for n bytes. -/
def roomCapacity (rb : Ring) (n : Nat) : Nat :=
  if mustGrow rb n then grownCapacity (rb.length + n) else rb.capacity

/-- Everything making room can do under the ring invariant. -/
theorem makeRoom_spec {c : Config} {rb : Ring} (h : RingInv c rb) {xs : List Byte} (hx : contents rb = .ok xs) (n : Nat) :
    (mustGrow rb n = true ∧ c.exceedsMax (grownCapacity (rb.length + n)) = true ∧
      makeRoom c rb n = .exceeded (grownCapacity (rb.length + n))) ∨
    (∃ r, makeRoom c rb n = .room r ∧ c.exceedsMax (roomCapacity rb n) = false ∧ r.capacity = roomCapacity rb n ∧
      r.length = rb.length ∧
      rb.length + n ≤ r.capacity ∧ contents r = .ok xs ∧ RingInv c r ∧
      (mustGrow rb n = false → r = rb) ∧
      (mustGrow rb n = true → r.head = 0 ∧ r.tail = rb.length ∧ r.allocation = rb.allocation + 1)) := by
  unfold makeRoom roomCapacity
  cases hg : mustGrow rb n with
  | false =>
    refine .inr ⟨rb, by simp, by simpa using h.capacity_max, by simp, rfl, ?_, hx, h, fun _ => rfl, by simp⟩
    have : ¬ (0 < n ∧ rb.capacity < rb.length + n) := by rw [← mustGrow_iff]; simp [hg]
    have := h.length_le; omega
  | true =>
    obtain ⟨hn, hc⟩ := (mustGrow_iff rb n).1 hg
    cases he : c.exceedsMax (grownCapacity (rb.length + n)) with
    | true => exact .inl ⟨rfl, rfl, by simp⟩
    | false =>
      have hle := le_grownCapacity (rb.length + n)
      obtain ⟨r, hr, h1, h2, h3, h4, ha, h5, h6⟩ := grow_spec hx (newCap := grownCapacity (rb.length + n)) (by omega) he
      refine .inr ⟨r, by simp [hr], by simpa using he, by simp [h1], h4, by omega, h5, h6, by simp, fun _ => ⟨h2, h3, ha⟩⟩

/-- Where there is any storage, making room never stops at a read, whatever the bytes hold. -/
theorem makeRoom_of_capacity_pos (c : Config) {rb : Ring} (h : 0 < rb.capacity) (n : Nat) :
    makeRoom c rb n = .exceeded (grownCapacity (rb.length + n)) ∨ ∃ r, makeRoom c rb n = .room r := by
  obtain ⟨r, hr⟩ := grow_of_capacity_pos h (grownCapacity (rb.length + n))
  unfold makeRoom
  split
  · split
    · exact .inl rfl
    · exact .inr ⟨r, by simp [hr]⟩
  · exact .inr ⟨rb, rfl⟩

/-- Growth takes a size that R70 allows. -/
theorem grownCapacity_isGrowthFor (need : Nat) : isGrowthFor need (grownCapacity need) :=
  ⟨grownCapacity_dvd need, le_grownCapacity need, grownCapacity_least need⟩

/-- Making room and then appending is storing behind the live bytes. -/
theorem storedBehind_of_room {c : Config} {rb r : Ring} (h : RingInv c rb) {data : List Byte}
    (hr : makeRoom c rb data.length = .room r) : StoredBehind rb (append r data) data.length := by
  obtain ⟨xs, hx⟩ := contents_of_inv h
  rcases makeRoom_spec h hx data.length with ⟨_, _, he⟩ | ⟨r', he, _, hcap, hlen, _, _, _, hsame, hgrown⟩
  · rw [hr] at he; cases he
  · rw [hr] at he; cases he
    refine ⟨congrArg (· + data.length) hlen, fun hf => ?_, fun hf => ?_⟩
    · have hm : mustGrow rb data.length = false := by
        rw [← Bool.not_eq_true, mustGrow_iff]; omega
      obtain rfl := hsame hm
      exact ⟨rfl, rfl, rfl, rfl, fun a ha => append_read_other h.canonical ha⟩
    · have hm : mustGrow rb data.length = true := (mustGrow_iff _ _).2 ⟨by have := h.length_le; omega, hf⟩
      obtain ⟨hh, ht, ha⟩ := hgrown hm
      rw [roomCapacity, if_pos hm] at hcap
      exact ⟨hcap ▸ grownCapacity_isGrowthFor _, hh, by rw [← ht]; rfl, ha⟩

/-! ### Clear and dequeue (R74, R78, R79) -/

theorem clearRing_inv {c : Config} {rb : Ring} (h : RingInv c rb) : RingInv c (clearRing rb) where
  capacity_pos := h.capacity_pos
  capacity_max := h.capacity_max
  length_le := Nat.zero_le _
  head_lt := h.capacity_pos
  tail_lt := h.capacity_pos
  tail_eq := by show 0 = (0 + 0) % rb.capacity; simp
  normal := fun _ => ⟨rfl, rfl⟩
  canonical := h.canonical
  inside := h.inside
  written := fun k hk => absurd hk (Nat.not_lt_zero k)

theorem contents_of_length_zero {rb : Ring} (h : rb.length = 0) : contents rb = .ok [] := by
  simp [contents, readLive, h, readAll]

theorem consume_inv {c : Config} {rb : Ring} (h : RingInv c rb) {n : Nat} (hn : n ≤ rb.length) :
    RingInv c (consume rb n) := by
  unfold consume
  split
  · exact h
  · split
    · exact clearRing_inv h
    · have hl := h.length_le
      exact {
        capacity_pos := h.capacity_pos
        capacity_max := h.capacity_max
        length_le := by show rb.length - n ≤ rb.capacity; omega
        head_lt := Nat.mod_lt _ h.capacity_pos
        tail_lt := h.tail_lt
        tail_eq := by
          show rb.tail = ((rb.head + n) % rb.capacity + (rb.length - n)) % rb.capacity
          rw [h.tail_eq, Nat.mod_add_mod]; congr 1; omega
        normal := fun h0 => absurd h0 (by show ¬ rb.length - n = 0; assumption)
        canonical := h.canonical
        inside := h.inside
        written := fun k hk => by
          have hk : k < rb.length - n := hk
          show (rb.storage.read (((rb.head + n) % rb.capacity + k) % rb.capacity)).isSome = true
          rw [Nat.mod_add_mod, Nat.add_assoc]
          exact h.written (n + k) (by omega) }

/-- What a dequeue leaves is the rest of the live bytes (R79). -/
theorem contents_consume {rb : Ring} {xs : List Byte} (hx : contents rb = .ok xs) {n : Nat} (hn : n ≤ rb.length) :
    contents (consume rb n) = .ok (xs.drop n) := by
  obtain ⟨hl, h⟩ := (readLive_ok_iff _ _ _).1 hx
  unfold consume
  split
  · subst_vars; simpa using hx
  · split
    · rw [List.drop_eq_nil_of_le (by omega)]; exact contents_of_length_zero rfl
    · refine (readLive_ok_iff _ _ _).2 ⟨by simp [hl], fun k hk => ?_⟩
      have hk' : n + k < xs.length := by simp at hk; omega
      have := h (n + k) hk'
      show memRead rb (((rb.head + n) % rb.capacity + k) % rb.capacity) = _
      rw [Nat.mod_add_mod, Nat.add_assoc]
      simpa [liveAddress] using this

/-- Storage as an allocation leaves it: nothing live, nothing written. -/
theorem unwritten_inv {c : Config} (h : c.wf) (allocation : Nat) : RingInv c ⟨c.initCapacity, 0, 0, 0, [], allocation⟩ where
  capacity_pos := h.1
  capacity_max := h.2
  length_le := Nat.zero_le _
  head_lt := h.1
  tail_lt := h.1
  tail_eq := by show 0 = (0 + 0) % c.initCapacity; simp
  normal := fun _ => ⟨rfl, rfl⟩
  canonical := List.Pairwise.nil
  inside := by simp
  written := fun k hk => absurd hk (Nat.not_lt_zero k)

theorem fresh_inv {c : Config} (h : c.wf) : RingInv c (Ring.fresh c) := unwritten_inv h 0

theorem reallocate_inv {c : Config} (h : c.wf) (rb : Ring) : RingInv c (reallocate rb c.initCapacity) :=
  unwritten_inv h (rb.allocation + 1)

end Sys2Proof.Machine
end

