-- ==== Sys2Proof/Laws/Exec.lean ====
section
/-! SUPPORT. The common checks (R130) and the order of service (R48), said once: what each can come to. -/

namespace Sys2Proof.Machine

open Sys2Proof.Safety

/-! ### The common checks -/

theorem guarded_denied {i : Instr} {rule : State → Result} {s : State} (h : permitted s.issuer i = false) :
    guarded i rule s = .next (takePrecise (cmdByteOf i) .agentNotPermitted (.opcode (opcodeOf i)) s) := by
  simp [guarded, h]

theorem guarded_held {i : Instr} {rule : State → Result} {s : State} (hp : permitted s.issuer i = true)
    (h : held s.issuer i s.lockOwner = true) : guarded i rule s = .next s := by simp [guarded, hp, h]

theorem guarded_runs {i : Instr} {rule : State → Result} {s : State} (hp : permitted s.issuer i = true)
    (h : held s.issuer i s.lockOwner = false) : guarded i rule s = rule s := by simp [guarded, hp, h]

/-- Everything the common checks can do. -/
theorem guarded_cases (i : Instr) (rule : State → Result) (s : State) :
    (permitted s.issuer i = false ∧
      guarded i rule s = .next (takePrecise (cmdByteOf i) .agentNotPermitted (.opcode (opcodeOf i)) s)) ∨
    (permitted s.issuer i = true ∧ held s.issuer i s.lockOwner = true ∧ guarded i rule s = .next s) ∨
    (permitted s.issuer i = true ∧ held s.issuer i s.lockOwner = false ∧ guarded i rule s = rule s) := by
  cases hp : permitted s.issuer i with
  | false => exact .inl ⟨rfl, guarded_denied hp⟩
  | true =>
    cases hh : held s.issuer i s.lockOwner with
    | true => exact .inr (.inl ⟨rfl, rfl, guarded_held hp hh⟩)
    | false => exact .inr (.inr ⟨rfl, rfl, guarded_runs hp hh⟩)

/-- Whatever the command, a denied one is only recorded (R129). -/
theorem exec_denied {i : Instr} {s : State} (h : permitted s.issuer i = false) :
    exec i s = .next (takePrecise (cmdByteOf i) .agentNotPermitted (.opcode (opcodeOf i)) s) := by
  cases i <;> simp only [exec, execRbEnq, execRbDeq, execRbPeek, execRbClr, execRbIdx, execRbLen, execRbLock, execRbUnlock,
    execHdDec, execRxCmpen, execRxFeed, execConnRst] <;> exact guarded_denied h

/-- Whatever the command, a held one changes nothing (R49). -/
theorem exec_held {i : Instr} {s : State} (hp : permitted s.issuer i = true) (h : held s.issuer i s.lockOwner = true) :
    exec i s = .next s := by
  cases i <;> simp only [exec, execRbEnq, execRbDeq, execRbPeek, execRbClr, execRbIdx, execRbLen, execRbLock, execRbUnlock,
    execHdDec, execRxCmpen, execRxFeed, execConnRst] <;> exact guarded_held hp h

@[simp] theorem permitted_A0 (i : Instr) : permitted .A0 i = true := rfl

theorem held_of_lockAllows {s : State} (h : lockAllows s) (i : Instr) : held s.issuer i s.lockOwner = false := by
  rcases h with h | h <;> simp [held, h]

theorem held_of_other {i : Instr} {a b : Agent} (hl : lockedOp i = true) (h : b ≠ a) : held a i (some b) = true := by
  simp [held, hl, h]

theorem held_of_unlockedOp {i : Instr} (h : lockedOp i = false) (a : Agent) (o : Option Agent) : held a i o = false := by
  simp [held, h]

/-! ### The order of service -/

/-- Who is served: an agent whose oldest request is not held, the listed choice where that is both (R48, R49). -/
theorem arbitrate_some {s : State} {a : Agent} (h : arbitrate s = some a) :
    ready s a = true ∧ (contended s = true → a = nextTurn s) := by
  unfold arbitrate at h
  split at h <;> simp_all [contended]
  cases a <;> assumption

theorem arbitrate_none {s : State} (h : arbitrate s = none) (a : Agent) : ready s a = false := by
  unfold arbitrate at h
  split at h <;> simp_all
  cases a <;> assumption

/-- An agent that can be served has a request that is not held. -/
theorem ready_iff (s : State) (a : Agent) :
    ready s a = true ↔ ∃ c rest, queueOf s a = c :: rest ∧ requestHeld a c s.lockOwner = false := by
  unfold ready
  cases queueOf s a <;> simp

/-- The request of another agent stays where it is. -/
theorem queueOf_accept (s : State) (a b : Agent) :
    queueOf (accept s a) b = if b = a then (queueOf s a).tail else queueOf s b := by
  have hs : ∀ b, queueOf (spendTurn s) b = queueOf s b := by intro b; cases b <;> simp [queueOf]
  have e : queueOf (accept s a) b = queueOf (setQueue (spendTurn s) a (queueOf s a).tail) b := by cases b <;> rfl
  rw [e]
  split
  · subst_vars; simp
  · rename_i h
    rw [queueOf_setQueue_other _ _ h, hs]

/-- A step, where it is anyone's turn, serves that agent's oldest request. -/
theorem step_of_arbitrate {s : State} {a : Agent} (h : arbitrate s = some a) :
    ∃ c rest, queueOf s a = c :: rest ∧ requestHeld a c s.lockOwner = false ∧ step s = serve c (accept s a) := by
  obtain ⟨c, rest, hq, hh⟩ := (ready_iff s a).1 (arbitrate_some h).1
  exact ⟨c, rest, hq, hh, by simp [step, h, hq]⟩

theorem step_of_none {s : State} (h : arbitrate s = none) : step s = .next s := by simp [step, h]

/-- Everything a step can do. -/
theorem step_cases (s : State) :
    (arbitrate s = none ∧ step s = .next s) ∨
    (∃ a c rest, arbitrate s = some a ∧ queueOf s a = c :: rest ∧ requestHeld a c s.lockOwner = false ∧
      step s = serve c (accept s a)) := by
  cases h : arbitrate s with
  | none => exact .inl ⟨rfl, step_of_none h⟩
  | some a =>
    obtain ⟨c, rest, h1, h2, h3⟩ := step_of_arbitrate h
    exact .inr ⟨a, c, rest, rfl, h1, h2, h3⟩

/-- Everything serving a request can do. -/
theorem serve_cases (c : Command) (s : State) :
    (∃ i, decode c = .instr i ∧ serve c s = exec i s) ∨
    ((decode c = .reservedBits ∨ decode c = .reservedOpcode) ∧
      serve c s = .next (takePrecise c.cmd .illegalCommand (.commandByte c.cmd) s)) ∨
    (decode c = .dataTooLong ∧ serve c s = .refused (.requestTooLong c.data.length)) := by
  unfold serve
  cases h : decode c with
  | instr i => exact .inl ⟨i, rfl, rfl⟩
  | reservedBits => exact .inr (.inl ⟨.inl rfl, rfl⟩)
  | reservedOpcode => exact .inr (.inl ⟨.inr rfl, rfl⟩)
  | dataTooLong => exact .inr (.inr ⟨rfl, rfl⟩)

/-! ### Decoding -/

theorem withData_ok {data : List Byte} (h : dataFits data) (i : Instr) : withData data i = .instr i := by
  simp only [withData, if_pos h]

theorem decode_eq (c : Command) : decode c = decodeByte c.cmd c.arg c.data := rfl

/-- A request the port can carry is never refused (R54). -/
theorem decode_ne_dataTooLong {c : Command} (h : c.wf) : decode c ≠ .dataTooLong := by
  rw [decode_eq]
  unfold decodeByte decodeOp
  split
  · simp
  · split <;> simp [withData_ok h]

end Sys2Proof.Machine
end

