-- ==== Sys2Proof/Laws/PerInstr.lean ====
section
/-! SUPPORT. Statements made per instruction: `CommandByte`, the byte an instruction is encoded with is a legal one whose two fields are 0 and its opcode. -/

namespace Sys2Proof.Laws.CommandByte

/-- The encoded byte has `rsv` = 0, and `op` is the instruction's opcode, in 0x1 to 0xC (R57, R58). -/
def Statement (i : Instr) : Prop :=
  rsvField (encode i).cmd = 0 ∧ opField (encode i).cmd = opcodeOf i ∧ 1 ≤ (encode i).cmd.toNat ∧ (encode i).cmd.toNat ≤ 12

theorem rbEnq (data : List Byte) : Statement (.rbEnq data) := by simp only [Statement, encode, cmdByteOf, opcodeOf]; decide
theorem rbDeq (n : Arg) : Statement (.rbDeq n) := by simp only [Statement, encode, cmdByteOf, opcodeOf]; decide
theorem rbPeek (n : Arg) : Statement (.rbPeek n) := by simp only [Statement, encode, cmdByteOf, opcodeOf]; decide
theorem rbClr : Statement .rbClr := by simp only [Statement, encode, cmdByteOf, opcodeOf]; decide
theorem rbIdx (n : Arg) : Statement (.rbIdx n) := by simp only [Statement, encode, cmdByteOf, opcodeOf]; decide
theorem rbLen : Statement .rbLen := by simp only [Statement, encode, cmdByteOf, opcodeOf]; decide
theorem rbLock : Statement .rbLock := by simp only [Statement, encode, cmdByteOf, opcodeOf]; decide
theorem rbUnlock : Statement .rbUnlock := by simp only [Statement, encode, cmdByteOf, opcodeOf]; decide
theorem hdDec (cap : Arg) (chunk : List Byte) : Statement (.hdDec cap chunk) := by
  simp only [Statement, encode, cmdByteOf, opcodeOf]; decide
theorem rxCmpen : Statement .rxCmpen := by simp only [Statement, encode, cmdByteOf, opcodeOf]; decide
theorem rxFeed (chunk : List Byte) : Statement (.rxFeed chunk) := by
  simp only [Statement, encode, cmdByteOf, opcodeOf]; decide
theorem connRst : Statement .connRst := by simp only [Statement, encode, cmdByteOf, opcodeOf]; decide

end Sys2Proof.Laws.CommandByte
end

