-- ==== Sys2Proof/Tests/Slice0.lean ====
section
/-! SUPPORT. Tests whose results come from the spec (95_test_vectors.md, named V-…, and the worked examples of the rules), the well-formedness smoke test, and for every obligation with hypotheses a witness that meets them all. -/

namespace Sys2Proof.Tests

open Sys2Proof.Machine Sys2Proof.Safety

/-! ### Small states -/

/-- T_DEMO of 41_decompressor.md: a test configuration, not the reference tree. -/
def demoTree : Tree :=
  ((((((((Vector.replicate treeSlots 0).set 0 1).set 1 2).set 2 (-0x41)).set 3 0).set 4 3).set 5 (-256)).set 6 (-0x42)).set 7 (-0xFF)

/-- The configuration of 95_test_vectors.md. -/
def demo : Config := ⟨demoTree, 4, none, 8⟩

/-- The same with `MAX_CAPACITY = 4`. -/
def demoMax4 : Config := ⟨demoTree, 4, some 4, 8⟩

/-- "From reset". -/
def base : State := State.powerOn demo

/-- From reset, with the given ring. -/
def onRing (rb : Ring) : State := setRing rb base

/-- `4, 0, 3, 3`; [1, 2, 3] -/
def three : Ring := ⟨4, 0, 3, 3, [(0, 1), (1, 2), (2, 3)], 0⟩

/-- `4, 2, 1, 3`; [3, 4, 5] at addresses 2, 3, 0, and a stale byte at 1 (program P1, line 3) -/
def wrapped : Ring := ⟨4, 2, 1, 3, [(0, 5), (1, 2), (2, 3), (3, 4)], 0⟩

/-- `4, 0, 0, 4`; [9, 8, 7, 6] -/
def full : Ring := ⟨4, 0, 0, 4, [(0, 9), (1, 8), (2, 7), (3, 6)], 0⟩

/-- From reset, issued by A1. -/
def byA1 (s : State) : State := { s with issuer := .A1 }

/-- With compression on. -/
def compressed (s : State) : State := { s with compressEn := true }

/-- Mid-codeword at node 3, as V-D3's first call leaves D. -/
def midCodeword (s : State) : State := setDecoder ⟨8, 0x02, 0x00, 3, .ready⟩ s

/-- With a FAULTED decoder. -/
def faulted (s : State) : State := setDecoder ⟨8, 0, 0, 0, .faulted⟩ s

/-- The next state of an outcome. -/
def nextState : Result → Option State
  | .next t => some t
  | .fault _ => none
  | .refused _ => none

/-- The newest response of an outcome. -/
def answered (r : Result) : Option Response := (nextState r).bind fun t => t.responses.getLast?

/-- The ring of an outcome: capacity, head, tail, length and the live bytes. -/
def ringAfter (r : Result) : Option (Nat × Nat × Nat × Nat × List Byte) :=
  (nextState r).bind fun t =>
    match contents t.rb with
    | .ok xs => some (t.rb.capacity, t.rb.head, t.rb.tail, t.rb.length, xs)
    | .error _ => none

/-- The decoder of an outcome. -/
def decoderAfter (r : Result) : Option Decoder := (nextState r).map fun t => t.dec

/-! ### Well-formedness: an ill-formed term for each check (R54) -/

/-- DATA_IN of 2^32 bytes, one more than the port carries. -/
theorem long_data : ∃ data : List Byte, ¬ dataFits data :=
  ⟨List.replicate dataLimit 0, by rw [dataFits, List.length_replicate]; exact Nat.lt_irrefl _⟩

theorem test_rbEnq_too_long_is_ill_formed : ∃ data, (Instr.rbEnq data).wf = false :=
  long_data.imp fun _ h => decide_eq_false h

theorem test_hdDec_too_long_is_ill_formed : ∃ chunk, (Instr.hdDec 0 chunk).wf = false :=
  long_data.imp fun _ h => decide_eq_false h

theorem test_rxFeed_too_long_is_ill_formed : ∃ chunk, (Instr.rxFeed chunk).wf = false :=
  long_data.imp fun _ h => decide_eq_false h

theorem test_too_long_is_refused_by_name : ∃ data, decode ⟨0x01, 0, data⟩ = .dataTooLong :=
  long_data.imp fun data h => show withData data (.rbEnq data) = _ from if_neg h

/-- R9: a tree with an entry outside -256..255, or with 511 entries, is refused; T_DEMO's entries are accepted. -/
theorem test_config_refuses_an_ill_formed_tree :
    (Config.ofParameters (256 :: List.replicate 511 0) 4 none 8 = .error .treeNotWellFormed) ∧
    (Config.ofParameters (List.replicate 511 0) 4 none 8 = .error .treeNotWellFormed) ∧
    (Config.ofParameters ([1, 2, -0x41, 0, 3, -256, -0x42, -0xFF] ++ List.replicate 504 0) 4 none 8).toOption.map
      (fun c => (treeEntry c.tree 2 true, treeEntry c.tree 3 true, c.initCapacity)) = some (-256, -255, 4) := by
  decide +kernel

/-- R7: INIT_CAPACITY is at least 1 and at most MAX_CAPACITY. -/
theorem test_config_refuses_bad_capacities :
    Config.ofParameters (List.replicate 512 0) 0 none 8 = .error .initCapacityZero ∧
    Config.ofParameters (List.replicate 512 0) 5 (some 4) 8 = .error .maxBelowInit := by decide +kernel

/-! ### Decoding: every constructor's byte written out from R57 and R58, rsv then op -/

theorem test_decode_rbEnq : decode ⟨0b0000_0001, 7, [1, 2]⟩ = .instr (.rbEnq [1, 2]) := by decide
theorem test_decode_rbDeq : decode ⟨0b0000_0010, 7, [1, 2]⟩ = .instr (.rbDeq 7) := by decide
theorem test_decode_rbPeek : decode ⟨0b0000_0011, 7, [1, 2]⟩ = .instr (.rbPeek 7) := by decide
theorem test_decode_rbClr : decode ⟨0b0000_0100, 7, [1, 2]⟩ = .instr .rbClr := by decide
theorem test_decode_rbIdx : decode ⟨0b0000_0101, 7, [1, 2]⟩ = .instr (.rbIdx 7) := by decide
theorem test_decode_rbLen : decode ⟨0b0000_0110, 7, [1, 2]⟩ = .instr .rbLen := by decide
theorem test_decode_rbLock : decode ⟨0b0000_0111, 7, [1, 2]⟩ = .instr .rbLock := by decide
theorem test_decode_rbUnlock : decode ⟨0b0000_1000, 7, [1, 2]⟩ = .instr .rbUnlock := by decide
theorem test_decode_hdDec : decode ⟨0b0000_1001, 7, [1, 2]⟩ = .instr (.hdDec 7 [1, 2]) := by decide
theorem test_decode_rxCmpen : decode ⟨0b0000_1010, 7, [1, 2]⟩ = .instr .rxCmpen := by decide
theorem test_decode_rxFeed : decode ⟨0b0000_1011, 7, [1, 2]⟩ = .instr (.rxFeed [1, 2]) := by decide
theorem test_decode_connRst : decode ⟨0b0000_1100, 7, [1, 2]⟩ = .instr .connRst := by decide

/-- R59, V-E1 and V-E2: the reserved opcodes. -/
theorem test_decode_reserved_opcodes :
    decode ⟨0b0000_0000, 0, []⟩ = .reservedOpcode ∧ decode ⟨0b0000_1101, 0, []⟩ = .reservedOpcode ∧
    decode ⟨0b0000_1110, 0, []⟩ = .reservedOpcode ∧ decode ⟨0b0000_1111, 0, []⟩ = .reservedOpcode := by decide

/-- R60, V-E4 to V-E6: the reserved field, with a reserved and with a legal opcode. -/
theorem test_decode_reserved_bits :
    decode ⟨0b0001_0000, 0, []⟩ = .reservedBits ∧ decode ⟨0b1000_0001, 0, []⟩ = .reservedBits ∧
    decode ⟨0b1111_1111, 0, []⟩ = .reservedBits := by decide

/-- R60: of the 256 bytes exactly 0x01 to 0x0C are legal. -/
theorem test_twelve_bytes_are_legal :
    ∀ b : Byte, (decodeTableWord 8 b.toNat).isSome = decide (1 ≤ b.toNat ∧ b.toNat ≤ 12) := by decide +kernel

/-- An opcode-table word runs as the very next command. -/
theorem test_withFetchWord_runs_it :
    answered (step (State.withFetchWord (onRing full) 8 0b0000_0110)) = some ⟨.A0, 0x00, 4, [], false⟩ ∧
    answered (step (State.withFetchWord base 8 0b0001_0000)) = some ⟨.A0, 0x01, 0, [], false⟩ := by decide +kernel

/-! ### Storage bytes -/

/-- R21, R37: every address below INIT_CAPACITY has a byte after reset, a free one; address INIT_CAPACITY has none. -/
theorem test_storage_after_reset :
    memRead base.rb 0 = .ok (Config.freeStorageByte 0 0) ∧ memRead base.rb 3 = .ok (Config.freeStorageByte 0 3) ∧
    memRead base.rb 4 = .error (.noSuchAddress 4) := ⟨rfl, rfl, rfl⟩

/-- R69, R122: growth and CONN_RST allocate anew, and clear does not. -/
theorem test_storage_is_reallocated :
    (nextState (exec (.rbEnq [6, 7]) (onRing wrapped))).map (·.rb.allocation) = some 1 ∧
    (nextState (exec .connRst (onRing wrapped))).map (·.rb.allocation) = some 1 ∧
    (nextState (exec .rbClr (onRing wrapped))).map (·.rb.allocation) = some 0 := by decide +kernel

/-! ### One command (95_test_vectors.md) -/

/-- V-R3: an enqueue past the end of storage wraps to address 0. -/
theorem test_rbEnq_wraps :
    ringAfter (exec (.rbEnq [4, 5]) (onRing ⟨4, 2, 3, 1, [(0, 1), (1, 2), (2, 3)], 0⟩)) = some (4, 2, 1, 3, [3, 4, 5]) := by
  decide +kernel

/-- V-R10: growth moves the live bytes to address 0. -/
theorem test_rbEnq_grows : ringAfter (exec (.rbEnq [6, 7]) (onRing wrapped)) = some (2048, 0, 5, 5, [3, 4, 5, 6, 7]) := by
  decide +kernel

/-- V-R2. -/
theorem test_rbDeq_takes_the_oldest :
    ringAfter (exec (.rbDeq 2) (onRing three)) = some (4, 2, 3, 1, [3]) ∧
    answered (exec (.rbDeq 2) (onRing three)) = some ⟨.A0, 0x00, 2, [1, 2], false⟩ := by decide +kernel

/-- V-R7: a dequeue across the wrap empties and normalises. -/
theorem test_rbDeq_normalises :
    ringAfter (exec (.rbDeq 3) (onRing wrapped)) = some (4, 0, 0, 0, []) ∧
    answered (exec (.rbDeq 3) (onRing wrapped)) = some ⟨.A0, 0x00, 3, [3, 4, 5], false⟩ := by decide +kernel

/-- V-R4: a peek stops at the end of storage. -/
theorem test_rbPeek_stops_at_the_wrap :
    answered (exec (.rbPeek 10) (onRing wrapped)) = some ⟨.A0, 0x00, 2, [3, 4], false⟩ := by decide +kernel

/-- V-R15: full with head 0 gives the whole ring. -/
theorem test_rbPeek_whole_ring :
    answered (exec (.rbPeek 9) (onRing full)) = some ⟨.A0, 0x00, 4, [9, 8, 7, 6], false⟩ := by decide +kernel

/-- V-R21 at capacity 4: clearing keeps the capacity. -/
theorem test_rbClr_keeps_capacity : ringAfter (exec .rbClr (onRing wrapped)) = some (4, 0, 0, 0, []) := by decide +kernel

/-- V-R5: index 2 lies at address 0. -/
theorem test_rbIdx_past_the_wrap : answered (exec (.rbIdx 2) (onRing wrapped)) = some ⟨.A0, 0x00, 5, [], false⟩ := by
  decide +kernel

/-- V-R6. -/
theorem test_rbIdx_out_of_range : answered (exec (.rbIdx 3) (onRing wrapped)) = some ⟨.A0, 0x05, 0, [], false⟩ := by
  decide +kernel

/-- V-R23. -/
theorem test_rbLen_full : answered (exec .rbLen (onRing full)) = some ⟨.A0, 0x00, 4, [], false⟩ := by decide +kernel

/-- V-L5: held while A1 owns the lock, no response. -/
theorem test_rbLen_held : answered (exec .rbLen (setLock (some .A1) base)) = none := by decide +kernel

/-- V-L1. -/
theorem test_rbLock_acquires : (nextState (exec .rbLock (byA1 base))).map (·.lockOwner) = some (some .A1) := by decide +kernel

/-- V-L2. -/
theorem test_rbLock_is_not_reentrant :
    answered (exec .rbLock (byA1 (setLock (some .A1) base))) = some ⟨.A1, 0x03, 0, [], false⟩ := by decide +kernel

/-- V-L4: never held, and not the owner. -/
theorem test_rbUnlock_not_owner :
    answered (exec .rbUnlock (setLock (some .A1) base)) = some ⟨.A0, 0x04, 0, [], false⟩ := by decide +kernel

/-- Program P4, line 5. -/
theorem test_rbUnlock_releases :
    (nextState (exec .rbUnlock (byA1 (setLock (some .A1) base)))).map (·.lockOwner) = some none := by decide +kernel

/-- V-D3, second call: a codeword across two chunks, then a sentinel that drops five bits. -/
theorem test_hdDec_resumes :
    answered (exec (.hdDec 8 [0x60]) (midCodeword base)) = some ⟨.A0, 0x00, 1, [0x42], true⟩ ∧
    decoderAfter (exec (.hdDec 8 [0x60]) (midCodeword base)) = some ⟨8, 0x60, 0x10, 0, .ready⟩ := by decide +kernel

/-- V-D6 and V-D14: the sentinel is no symbol; the fourth leaf finds the output full. -/
theorem test_hdDec_sentinel_and_overflow :
    answered (exec (.hdDec 8 [0xC0]) base) = some ⟨.A0, 0x00, 0, [], true⟩ ∧
    answered (exec (.hdDec 3 [0x00]) base) = some ⟨.A0, 0x07, 3, [0x41, 0x41, 0x41], false⟩ := by decide +kernel

/-- V-X3. -/
theorem test_rxCmpen_sets_the_flag : (nextState (exec .rxCmpen base)).map (·.compressEn) = some true := by decide +kernel

/-- V-E8. -/
theorem test_rxCmpen_from_A1 : answered (exec .rxCmpen (byA1 base)) = some ⟨.A1, 0x02, 0, [], false⟩ := by decide +kernel

/-- V-X6: a compressed chunk ends the codeword and fills the ring. -/
theorem test_rxFeed_compressed :
    ringAfter (exec (.rxFeed [0x60]) (compressed (midCodeword (onRing ⟨4, 0, 3, 3, [(0, 0x41), (1, 0x41), (2, 0x41)], 0⟩)))) =
      some (4, 0, 0, 4, [0x41, 0x41, 0x41, 0x42]) := by decide +kernel

/-- V-X12: growth past MAX_CAPACITY restores D. -/
theorem test_rxFeed_capacity_exceeded :
    answered (exec (.rxFeed [0x00]) { compressed (midCodeword (onRing three)) with cfg := demoMax4 }) =
      some ⟨.A0, 0x06, 0, [], false⟩ ∧
    decoderAfter (exec (.rxFeed [0x00]) { compressed (midCodeword (onRing three)) with cfg := demoMax4 }) =
      some ⟨8, 0x02, 0x00, 3, .ready⟩ := by decide +kernel

/-- V-X14 and V-X16: capacity, flag and decoder back to reset. -/
theorem test_connRst_resets :
    (nextState (exec .connRst (faulted (compressed (onRing ⟨2048, 0, 1, 1, [(0, 1)], 1⟩))))).map
      (fun t => (t.rb.capacity, t.rb.length, t.compressEn, t.dec.dstate)) = some (4, 0, false, .ready) := by decide +kernel

/-- V-E11: permission comes before the hold. -/
theorem test_connRst_from_A1_is_not_held :
    answered (exec .connRst (byA1 (setLock (some .A0) base))) = some ⟨.A1, 0x02, 0, [], false⟩ := by decide +kernel

/-- V-L6: once A1 unlocks, the held RB_LEN completes; until then it stays first in A0's queue. -/
theorem test_held_request_waits :
    (nextState (step (submit .A0 ⟨0x06, 0, []⟩ (setLock (some .A1) base)))).map (·.queueA0) = some [⟨0x06, 0, []⟩] ∧
    answered (step (submit .A0 ⟨0x06, 0, []⟩ base)) = some ⟨.A0, 0x00, 0, [], false⟩ := by decide +kernel

/-! ### Witnesses: concrete states and operands that meet an obligation's hypotheses, at the ends of their ranges -/

theorem ringInv_fresh : RingInv demo (Ring.fresh demo) := by constructor <;> decide
theorem ringInv_three : RingInv demo three := by constructor <;> decide
theorem ringInv_three_max : RingInv demoMax4 three := by constructor <;> decide
theorem ringInv_wrapped : RingInv demo wrapped := by constructor <;> decide
theorem ringInv_full : RingInv demo full := by constructor <;> decide
theorem ringInv_full_max : RingInv demoMax4 full := by constructor <;> decide

theorem growth_small : isGrowthFor 5 2048 := ⟨by decide, by decide, fun m h1 h2 => Nat.le_of_dvd (by omega) h1⟩
theorem growth_exact : isGrowthFor 2048 2048 := ⟨by decide, by decide, fun _ _ h => h⟩
theorem growth_one_more : isGrowthFor 2049 4096 := ⟨by decide, by decide, fun m h1 h2 => by omega⟩

/-- What HD_DEC and RX_FEED find in the one-byte chunk 0x00 of T_DEMO: four symbols, back at the root (V-D2). -/
theorem walk_zero : walkBytes demo.tree 0 [0x00] = (0, [0x41, 0x41, 0x41, 0x41]) := by decide +kernel

theorem witness_OpcodeMapDecodesEveryRow : ([] : List Byte).length < 2 ^ 32 := by decide

theorem witness_IllegalBytesFaultAndTwelveRun :
    ((0x00 : Byte).toNat = 0 ∨ 12 < (0x00 : Byte).toNat) ∧ 12 < (0x0D : Byte).toNat ∧
    1 ≤ (0x01 : Byte).toNat ∧ (0x0C : Byte).toNat ≤ 12 ∧ ([] : List Byte).length < 2 ^ 32 := by decide

theorem witness_DecodeOfEncodeIsTheCommand :
    (Instr.rbEnq []).wf = true ∧ (Instr.hdDec 0xFFFFFFFF [0xFF]).wf = true := by decide

theorem witness_EncodeOfDecodeKeepsByteAndUsedOperands : decode ⟨0x09, 8, [0x26]⟩ = .instr (.hdDec 8 [0x26]) := by decide

theorem witness_UnusedOperandsAreIgnored :
    decode ⟨0x01, 0xDEADBEEF, [0x01]⟩ = .instr (.rbEnq [0x01]) ∧ usesArg (.rbEnq [0x01]) = false ∧
    usesData (.rbEnq [0x01]) = true := by decide

theorem witness_AssemblerExamples : demo.stageCap < 2 ^ 32 := by decide

/-- Both agents wait; the listed turn serves A1. -/
def twoWaiting : State := { submit .A1 ⟨0x07, 0, []⟩ (submit .A0 ⟨0x06, 0, []⟩ base) with turns := [.A1] }

theorem witness_StepRunsTheDecodedCommand :
    arbitrate twoWaiting = some .A1 ∧ queueOf twoWaiting .A1 = [⟨0x07, 0, []⟩] ∧ decode ⟨0x07, 0, []⟩ = .instr .rbLock ∧
    contended twoWaiting = true := by decide +kernel

theorem witness_EveryInterleavingIsAdmitted :
    queueOf twoWaiting .A0 = [⟨0x06, 0, []⟩] ∧ requestHeld .A0 ⟨0x06, 0, []⟩ twoWaiting.lockOwner = false := by decide +kernel

/-- A1 owns the lock and A0's request is in LOCKED_OPS. -/
def heldState : State := submit .A0 ⟨0x06, 0, []⟩ (setLock (some .A1) base)

/-- A0 waits with the given command byte while A1 owns the lock. -/
def waitsFor (cmd : Byte) : State := submit .A0 ⟨cmd, 0, []⟩ (setLock (some .A1) base)

/-- Both ends of each range of command bytes: held, held for A0 only, and never held. -/
theorem witness_HoldRule :
    (∀ cmd, (waitsFor cmd).lockOwner = some .A1 ∧ Agent.A1 ≠ (waitsFor cmd).issuer ∧ Agent.A1 ≠ .A0 ∧
      queueOf (waitsFor cmd) .A0 = [⟨cmd, 0, []⟩] ∧ (⟨cmd, 0, []⟩ : Command).data.length < 2 ^ 32) ∧
    (0x01 : Byte) ∈ [(0x01 : Byte), 0x02, 0x03, 0x04, 0x05, 0x06, 0x07] ∧
    (0x07 : Byte) ∈ [(0x01 : Byte), 0x02, 0x03, 0x04, 0x05, 0x06, 0x07] ∧
    (0x0B : Byte) ∈ [(0x0B : Byte), 0x0C] ∧ (0x0C : Byte) ∈ [(0x0B : Byte), 0x0C] ∧
    (0x08 : Byte) ∈ [(0x08 : Byte), 0x09, 0x0A] ∧ (0x0A : Byte) ∈ [(0x08 : Byte), 0x09, 0x0A] ∧
    (∃ t, exec .rbUnlock (byA1 heldState) = .next t ∧ t.lockOwner ≠ some .A1) :=
  ⟨fun _ => ⟨rfl, show Agent.A1 ≠ .A0 by decide, by decide, rfl, by simp⟩, by decide, by decide, by decide,
    by decide, by decide, by decide, _, rfl, by decide⟩

theorem witness_LockedSequenceIsNotInterleaved :
    ∃ s t, s.lockOwner = some .A1 ∧ Agent.A0 ≠ .A1 ∧ arbitrate s = some .A0 ∧ step s = .next t :=
  ⟨submit .A0 ⟨0x0A, 0, []⟩ (setLock (some .A1) base), _, rfl, by decide, rfl, rfl⟩

/-- An idle block, and one whose only request is held. -/
theorem witness_UnreleasedLockIsAHang :
    (queueOf base .A0 = [] ∧ queueOf base .A1 = []) ∧ queueOf heldState .A0 = [⟨0x06, 0, []⟩] ∧
    ∀ a c rest, queueOf heldState a = c :: rest → requestHeld a c heldState.lockOwner = true := by
  refine ⟨⟨rfl, rfl⟩, rfl, fun a c rest h => ?_⟩
  cases a with
  | A0 => rw [← (List.cons.inj h).1]; decide
  | A1 => cases h

/-- A run that serves A0's RX_CMPEN in its first step and then waits. -/
def shortRun : Nat → State
  | 0 => submit .A0 ⟨0x0A, 0, []⟩ base
  | _ + 1 => { base with compressEn := true, responses := [⟨.A0, 0x00, 0, [], false⟩] }

theorem witness_FairRunServesUnheldRequests :
    IsRun shortRun ∧ WeaklyFair shortRun ∧ queueOf (shortRun 0) .A0 = [⟨0x0A, 0, []⟩] ∧
    ∀ owner, requestHeld .A0 ⟨0x0A, 0, []⟩ owner = false := by
  refine ⟨fun n => ?_, fun a n h => ?_, rfl, fun owner => rfl⟩
  · cases n with
    | zero => exact ⟨_, [], rfl, rfl⟩
    | succ n => exact ⟨_, [], rfl, rfl⟩
  · have := h (n + 1) (Nat.le_succ n)
    cases a <;> cases this

theorem witness_ProducerMayNotDecodeOrReset :
    (byA1 base).issuer = .A1 ∧ 0x09 ≤ (0x09 : Byte).toNat ∧ 0x09 ≤ (0x0C : Byte).toNat := ⟨rfl, by decide, by decide⟩

theorem witness_FaultsArePrecise :
    ∃ t r, serve ⟨0xFF, 0, []⟩ heldState = .next t ∧ t.responses = heldState.responses ++ [r] ∧
      r.status ≠ 0x00 ∧ r.status ≠ 0x07 := ⟨_, _, rfl, rfl, by decide, by decide⟩

theorem witness_EveryCommandCompletesOnceOrIsHeld :
    (∃ t, serve ⟨0x06, 0, []⟩ base = .next t) ∧ (∃ t, serve ⟨0x06, 0, []⟩ heldState = .next t) ∧
    (∃ t, serve ⟨0x08, 0, []⟩ base = .next t) ∧ ∃ t, serve ⟨0x00, 0, []⟩ base = .next t :=
  ⟨⟨_, rfl⟩, ⟨_, rfl⟩, ⟨_, rfl⟩, _, rfl⟩

theorem witness_FaultLogOnlyGrows : ∃ t, step (submit .A0 ⟨0x08, 0, []⟩ base) = .next t ∧ t.flog.length = 1 :=
  ⟨_, rfl, rfl⟩

theorem witness_ResponsesAreNeverRewritten : ∃ t, step twoWaiting = .next t ∧ t.responses.length = 1 := ⟨_, rfl, rfl⟩

theorem witness_ValueFitsThirtyTwoBits :
    ∃ s t r, Inv s ∧ s.cfg.maxCapacity = some 4 ∧ 4 < 2 ^ 32 ∧ exec .rbLen s = .next t ∧ t.responses = s.responses ++ [r] :=
  ⟨{ onRing full with cfg := demoMax4 }, _, _,
    ⟨by decide, ringInv_full_max, fun _ => rfl, rfl, by decide, by decide⟩, rfl, by decide, rfl, rfl⟩

theorem witness_lockAllows : lockAllows base ∧ lockAllows (setLock (some .A0) base) ∧ ¬ lockAllows heldState := by
  refine ⟨.inl rfl, .inr rfl, fun h => ?_⟩
  rcases h with h | h <;> cases h

theorem witness_RbEnqOfNothingIsANoOp : lockAllows (onRing full) := .inl rfl

/-- The last byte that fits, and a wrap. -/
theorem witness_RbEnqThatFitsAppends :
    (lockAllows (onRing three) ∧ RingInv demo three ∧ contents three = .ok [1, 2, 3] ∧
      0 < [(4 : Byte)].length ∧ three.length + [(4 : Byte)].length ≤ three.capacity) ∧
    lockAllows (onRing wrapped) ∧ RingInv demo wrapped ∧ contents wrapped = .ok [3, 4, 5] ∧
      wrapped.length + [(6 : Byte)].length ≤ wrapped.capacity :=
  ⟨⟨.inl rfl, ringInv_three, rfl, by decide, by decide⟩, .inl rfl, ringInv_wrapped, rfl, by decide⟩

/-- One byte more than fits; and the two needs where the growth quantum ends. -/
theorem witness_RbEnqThatGrowsLinearises :
    lockAllows (onRing full) ∧ RingInv demo full ∧ contents full = .ok [9, 8, 7, 6] ∧
    full.capacity < full.length + [(5 : Byte)].length ∧ isGrowthFor (full.length + [(5 : Byte)].length) 2048 ∧
    demo.exceedsMax 2048 = false ∧ isGrowthFor 2048 2048 ∧ isGrowthFor 2049 4096 :=
  ⟨.inl rfl, ringInv_full, rfl, by decide, growth_small, rfl, growth_exact, growth_one_more⟩

theorem witness_GrowthPastMaxCapacityFaults :
    ∃ s : State, lockAllows s ∧ s.rb.capacity < s.rb.length + [(4 : Byte), 5].length ∧
      isGrowthFor (s.rb.length + [(4 : Byte), 5].length) 2048 ∧ s.cfg.maxCapacity = some 4 ∧ 4 < 2048 ∧
      s.issuer = .A0 ∧ s.compressEn = false :=
  ⟨{ onRing three with cfg := demoMax4 }, .inl rfl, by decide, growth_small, rfl, by decide, rfl, rfl⟩

theorem witness_UnboundedEnqueueAlwaysSucceeds :
    lockAllows (onRing full) ∧ RingInv demo full ∧ contents full = .ok [9, 8, 7, 6] ∧ demo.maxCapacity = none :=
  ⟨.inl rfl, ringInv_full, rfl, rfl⟩

theorem witness_RbClrEmptiesTheRing : lockAllows (onRing wrapped) := .inl rfl

/-- Counts 0, some and all of the live bytes. -/
theorem witness_RbDeqTakesTheOldestBytes :
    lockAllows (onRing wrapped) ∧ RingInv demo wrapped ∧ contents wrapped = .ok [3, 4, 5] ∧
    0 = min (0 : Arg).toNat wrapped.length ∧ 2 = min (2 : Arg).toNat wrapped.length ∧
    3 = min (0xFFFFFFFF : Arg).toNat wrapped.length := ⟨.inl rfl, ringInv_wrapped, rfl, by decide, by decide, by decide⟩

/-- Each of the three bounds of a peek. -/
theorem witness_RbPeekReadsAContiguousSegment :
    lockAllows (onRing wrapped) ∧ RingInv demo wrapped ∧ contents wrapped = .ok [3, 4, 5] ∧
    1 = min (1 : Arg).toNat (min wrapped.length (wrapped.capacity - wrapped.head)) ∧
    2 = min (10 : Arg).toNat (min wrapped.length (wrapped.capacity - wrapped.head)) ∧
    3 = min (10 : Arg).toNat (min three.length (three.capacity - three.head)) :=
  ⟨.inl rfl, ringInv_wrapped, rfl, by decide, by decide, by decide⟩

/-- The last index in range and the first one out of it. -/
theorem witness_RbIdxReadsOneLiveByte :
    lockAllows (onRing wrapped) ∧ RingInv demo wrapped ∧ contents wrapped = .ok [3, 4, 5] ∧
    [(3 : Byte), 4, 5][(2 : Arg).toNat]? = some 5 ∧ wrapped.length ≤ (3 : Arg).toNat :=
  ⟨.inl rfl, ringInv_wrapped, rfl, by decide, by decide⟩

theorem witness_RbLenAnswersTheLength : lockAllows (onRing full) := .inl rfl

theorem witness_RbLockAcquiresAFreeLock :
    base.lockOwner = none ∧ (setLock (some .A0) base).lockOwner = some (setLock (some .A0) base).issuer ∧
    Agent.A1 ≠ heldState.issuer ∧ heldState.lockOwner = some .A1 := ⟨rfl, rfl, by decide, rfl⟩

theorem witness_RbUnlockReleasesTheOwnersLock :
    (setLock (some .A0) base).lockOwner = some base.issuer ∧ base.lockOwner ≠ some base.issuer ∧
    heldState.lockOwner ≠ some heldState.issuer := ⟨rfl, by decide, by decide⟩

theorem witness_ReadsStayInsideTheLiveBytes :
    RingInv demo wrapped ∧ contents wrapped = .ok [3, 4, 5] ∧
    (∃ t r, exec (.rbDeq 9) (onRing wrapped) = .next t ∧ t.responses = (onRing wrapped).responses ++ [r]) ∧
    (∃ t r, exec (.rbPeek 9) (onRing wrapped) = .next t ∧ t.responses = (onRing wrapped).responses ++ [r]) ∧
    (∃ t r, exec (.rbIdx 3) (onRing wrapped) = .next t ∧ t.responses = (onRing wrapped).responses ++ [r] ∧
      wrapped.length ≤ (3 : Arg).toNat) ∧
    ∃ t r, exec (.rbIdx 2) (onRing wrapped) = .next t ∧ t.responses = (onRing wrapped).responses ++ [r] ∧
      (2 : Arg).toNat < wrapped.length :=
  ⟨ringInv_wrapped, rfl, ⟨_, _, rfl, rfl⟩, ⟨_, _, rfl, rfl⟩, ⟨_, _, rfl, rfl, by decide⟩, _, _, rfl, rfl, by decide⟩

/-- Both agents, an enqueue that grows and a dequeue of part of it. -/
theorem witness_FifoLaw :
    RingInv base.cfg base.rb ∧ base.rb.length = 0 ∧
    (fifoRun [(.A1, .rbEnq [1, 2, 3, 4, 5]), (.A0, .rbDeq 2), (.A0, .rbLen)] base).map (·.2) =
      some ([1, 2, 3, 4, 5], [1, 2]) := ⟨ringInv_fresh, rfl, by decide +kernel⟩

/-- The ends of each of the three ranges, which do not meet. -/
theorem witness_ClassifyTestsTheSentinelFirst :
    (-256 : Int) ≤ -256 ∧ (-255 : Int) ≤ -255 ∧ (0 : Int) ≤ 0 ∧ (1 : Int) ≤ 1 ∧ (255 : Int) ≤ 255 ∧
    classify (-256) = .sentinel ∧ classify (-255) = .leaf 0xFF ∧ classify 0 = .leaf 0 ∧ classify 1 = .child 1 ∧
    classify 255 = .child 255 := by decide

/-- At the first bit of a byte and at the last. -/
theorem witness_BitStepsKeepTheCursorInvariant :
    (∃ d' out', CursorInv ⟨0, 0x26, 0x80, 0, .ready⟩ ∧ bitStep demo.tree 8 ⟨0, 0x26, 0x80, 0, .ready⟩ [] = some (d', out')) ∧
    ∃ d' out', CursorInv ⟨7, 0x26, 0x01, 0, .ready⟩ ∧ bitStep demo.tree 8 ⟨7, 0x26, 0x01, 0, .ready⟩ [] = some (d', out') :=
  ⟨⟨⟨1, 0x26, 0x40, 1, .ready⟩, [], by decide, by decide +kernel⟩, ⟨8, 0x26, 0x00, 1, .ready⟩, [], by decide, by decide +kernel⟩

/-- Output capacity exactly enough, and one short of it (V-D14). -/
theorem witness_HdDecAnswersTheWalkOverTheBits :
    base.issuer = .A0 ∧ base.dec.dstate = .ready ∧ base.dec.bitPosition = 8 ∧
    (walkBytes base.cfg.tree base.dec.treeNode [0x00]).2.length ≤ (4 : Arg).toNat ∧
    (3 : Arg).toNat < (walkBytes base.cfg.tree base.dec.treeNode [0x00]).2.length := by
  refine ⟨rfl, rfl, rfl, ?_⟩
  rw [show walkBytes base.cfg.tree base.dec.treeNode [0x00] = _ from walk_zero]; decide

theorem witness_FaultedDecoderStaysFaulted :
    (faulted base).dec.dstate = .faulted ∧ (faulted base).issuer = .A0 ∧ lockAllows (faulted base) ∧
    (compressed (faulted base)).compressEn = true ∧ (compressed (faulted base)).dec.dstate = .faulted ∧
    ∃ t, exec .connRst (faulted base) = .next t ∧ t.dec.dstate = .ready := ⟨rfl, rfl, .inl rfl, rfl, rfl, _, rfl, rfl⟩

theorem witness_EmptyChunkChangesNothing :
    (midCodeword base).issuer = .A0 ∧ (midCodeword base).dec.dstate = .ready ∧ (midCodeword base).dec.bitPosition = 8 ∧
    (midCodeword base).dec.treeNode ≠ 0 := ⟨rfl, rfl, rfl, by decide⟩

/-- The state after a decoder call that does not fault, as an equation that can be checked field by field. -/
theorem next_of_decoder {cap : Arg} {chunk : List Byte} {s : State} {d : Decoder} {out : List Byte} (hi : s.issuer = .A0)
    (hd : decompress s.cfg.tree chunk cap.toNat s.dec = .done d out) :
    exec (.hdDec cap chunk) s = .next (finish out.length out true (setDecoder d s)) := by
  simp only [exec, execHdDec]
  rw [guarded_runs (by rw [hi]; rfl) (held_of_unlockedOp rfl _ _)]
  simp only [argNat, hd]; rfl

theorem witness_CallsEndAtAByteBoundary :
    ∃ t r, exec (.hdDec 8 [0x02]) base = .next t ∧ t.responses = base.responses ++ [r] ∧ r.status = 0x00 :=
  ⟨_, _, next_of_decoder (d := ⟨8, 0x02, 0x00, 3, .ready⟩) (out := [0x41, 0x41, 0x41]) rfl (by decide +kernel), rfl, rfl⟩

/-- V-D3 against V-D4: the codeword 100 across the split, the joint capacity exactly enough. -/
theorem witness_SplitInvariance :
    ∃ s1 s2 r1 r2, exec (.hdDec 3 [0x02]) base = .next s1 ∧ s1.responses = base.responses ++ [r1] ∧ r1.status = 0x00 ∧
      exec (.hdDec 1 [0x60]) s1 = .next s2 ∧ s2.responses = s1.responses ++ [r2] ∧ r2.status = 0x00 ∧
      r1.dataOut.length + r2.dataOut.length ≤ (4 : Arg).toNat :=
  ⟨_, _, _, _, next_of_decoder (d := ⟨8, 0x02, 0x00, 3, .ready⟩) (out := [0x41, 0x41, 0x41]) rfl (by decide +kernel), rfl, rfl,
    next_of_decoder (d := ⟨8, 0x60, 0x10, 0, .ready⟩) (out := [0x42]) rfl (by decide +kernel), rfl, rfl, by decide⟩

/-- V-D6 and V-D7: bytes that differ only after the sentinel. -/
theorem witness_PaddingAfterASentinelHasNoEffect :
    BoundaryInv base.dec ∧
    bitsRead base.cfg.tree (walkBytes base.cfg.tree base.dec.treeNode []).1 (bitsOf 0xC0) = 2 ∧
    (bitsOf 0xC0).take 2 = (bitsOf 0xC7).take 2 ∧
    (∃ t, exec (.hdDec 8 ([] ++ 0xC0 :: [])) base = .next t) ∧ ∃ t, exec (.hdDec 8 ([] ++ 0xC7 :: [])) base = .next t :=
  ⟨fun _ => rfl, by decide +kernel, by decide,
    ⟨_, next_of_decoder (d := ⟨8, 0xC0, 0x20, 0, .ready⟩) (out := []) rfl (by decide +kernel)⟩,
    _, next_of_decoder (d := ⟨8, 0xC7, 0x20, 0, .ready⟩) (out := []) rfl (by decide +kernel)⟩

theorem witness_RxCmpenEnablesCompression : base.issuer = .A0 := rfl

/-- Filling the ring, and one byte more. -/
theorem witness_RxFeedRawEnqueuesTheChunk :
    (onRing three).issuer = .A0 ∧ lockAllows (onRing three) ∧ RingInv demo three ∧ contents three = .ok [1, 2, 3] ∧
    (onRing three).compressEn = false ∧ hasRoom (onRing three) 1 ∧ hasRoom (onRing three) 2 ∧
    three.length + 1 ≤ three.capacity ∧ three.capacity < three.length + 2 :=
  ⟨rfl, .inl rfl, ringInv_three, rfl, rfl, .inl (by decide), .inr (fun m h => by cases h), by decide, by decide⟩

/-- Four symbols where one fits, so the ring grows. -/
theorem witness_RxFeedCompressedEnqueuesTheSymbols :
    ∃ s : State, s.issuer = .A0 ∧ lockAllows s ∧ RingInv s.cfg s.rb ∧ contents s.rb = .ok [1, 2, 3] ∧ s.compressEn = true ∧
      s.dec.dstate = .ready ∧ s.dec.bitPosition = 8 ∧
      (walkBytes s.cfg.tree s.dec.treeNode [0x00]).2.length ≤ s.cfg.stageCap ∧
      hasRoom s (walkBytes s.cfg.tree s.dec.treeNode [0x00]).2.length :=
  ⟨compressed (onRing three), rfl, .inl rfl, ringInv_three, rfl, rfl, rfl, rfl, by decide +kernel, .inr (fun m h => by cases h)⟩

/-- Three symbols that fill the ring exactly. -/
theorem witness_RxFeedCompressedEnqueuesTheSymbols_fits :
    ∃ s : State, s.issuer = .A0 ∧ lockAllows s ∧ RingInv s.cfg s.rb ∧ contents s.rb = .ok [1] ∧ s.compressEn = true ∧
      s.dec.dstate = .ready ∧ s.dec.bitPosition = 8 ∧
      (walkBytes s.cfg.tree s.dec.treeNode [0x02]).2.length ≤ s.cfg.stageCap ∧
      hasRoom s (walkBytes s.cfg.tree s.dec.treeNode [0x02]).2.length ∧
      s.rb.length + (walkBytes s.cfg.tree s.dec.treeNode [0x02]).2.length = s.rb.capacity :=
  ⟨compressed (onRing ⟨4, 0, 1, 1, [(0, 1)], 0⟩), rfl, .inl rfl, by constructor <;> decide, rfl, rfl, rfl, rfl,
    by decide +kernel, .inr (fun m h => by cases h), by decide +kernel⟩

/-- V-X9: twelve symbols for a staging buffer of eight. -/
theorem witness_RxFeedOverflowEnqueuesNothing :
    lockAllows (compressed base) ∧ (compressed base).dec.dstate = .ready ∧ (compressed base).dec.bitPosition = 8 ∧
    (compressed base).cfg.stageCap <
      (walkBytes (compressed base).cfg.tree (compressed base).dec.treeNode [0x00, 0x00, 0x00]).2.length :=
  ⟨.inl rfl, rfl, rfl, by decide +kernel⟩

/-- V-X12, from a byte boundary at the root. -/
theorem witness_RxFeedThatCannotGrowRestoresTheDecoder :
    ∃ s : State, s.issuer = .A0 ∧ lockAllows s ∧ s.compressEn = true ∧ s.dec.dstate = .ready ∧ s.dec.bitPosition = 8 ∧
      4 = (walkBytes s.cfg.tree s.dec.treeNode [0x00]).2.length ∧ 4 ≤ s.cfg.stageCap ∧
      s.rb.capacity < s.rb.length + 4 ∧ isGrowthFor (s.rb.length + 4) 2048 ∧ s.cfg.maxCapacity = some 4 ∧ 4 < 2048 :=
  ⟨{ compressed (onRing ⟨4, 0, 1, 1, [(0, 1)], 0⟩) with cfg := demoMax4 }, rfl, .inl rfl, rfl, rfl, rfl, by decide +kernel,
    by decide, by decide, growth_small, rfl, by decide⟩

theorem witness_RxFeedIsAllOrNothing :
    (∃ t r, exec (.rxFeed [1]) (byA1 base) = .next t ∧ t.responses = (byA1 base).responses ++ [r] ∧ r.status = 0x02) ∧
    (∃ t r, exec (.rxFeed [1]) (compressed (faulted base)) = .next t ∧
      t.responses = (compressed (faulted base)).responses ++ [r] ∧ r.status = 0x08) ∧
    (∃ t r, exec (.rxFeed [1]) (onRing three) = .next t ∧ t.responses = (onRing three).responses ++ [r] ∧ r.status = 0x00) ∧
    RingInv demo three ∧ BoundaryInv base.dec ∧ contents three = .ok [1, 2, 3] :=
  ⟨⟨_, _, rfl, rfl, rfl⟩, ⟨_, _, rfl, rfl, rfl⟩, ⟨_, _, rfl, rfl, rfl⟩, ringInv_three, fun _ => rfl, rfl⟩

/-- V-X9, V-X12 and V-X5: the other statuses RX_FEED ends with while compression is on. -/
theorem witness_RxFeedIsAllOrNothing_compressed :
    (answered (exec (.rxFeed [0x00, 0x00, 0x00]) (compressed base))).map (·.status) = some 0x07 ∧
    (answered (exec (.rxFeed [0x00]) { compressed (onRing three) with cfg := demoMax4 })).map (·.status) = some 0x06 ∧
    (answered (exec (.rxFeed [0x02]) (compressed base))).map (·.status) = some 0x00 := by decide +kernel

theorem witness_ConnRstResetsTheConnection :
    (faulted (onRing wrapped)).issuer = .A0 ∧ lockAllows (faulted (onRing wrapped)) ∧ lockAllows (setLock (some .A0) base) :=
  ⟨rfl, .inl rfl, .inr rfl⟩

theorem witness_ConnRstIsIdempotent :
    ∃ t u, base.issuer = .A0 ∧ lockAllows base ∧ exec .connRst base = .next t ∧ exec .connRst t = .next u :=
  ⟨_, _, rfl, .inl rfl, rfl, rfl⟩

theorem witness_ConnRstEqualsPowerOnButLockAndLog :
    ∃ t, (setLock (some .A0) base).issuer = .A0 ∧ lockAllows (setLock (some .A0) base) ∧
      exec .connRst (setLock (some .A0) base) = .next t := ⟨_, rfl, .inr rfl, rfl⟩

/-- The ends of R9's and R7's ranges. -/
theorem witness_OnlyWellFormedTreesAreAccepted :
    (List.replicate 256 (-256 : Int) ++ List.replicate 256 255).length = 512 ∧
    (∀ v ∈ List.replicate 256 (-256 : Int) ++ List.replicate 256 255, -256 ≤ v ∧ v ≤ 255) ∧ 1 ≤ 1 ∧
    (∀ m, some 1 = some m → 1 ≤ m) ∧ ¬ (([] : List Int).length = 512 ∧ ∀ v ∈ ([] : List Int), -256 ≤ v ∧ v ≤ 255) := by
  refine ⟨by rw [List.length_append, List.length_replicate, List.length_replicate], ?_, Nat.le_refl 1, fun m h => by cases h; decide,
    fun h => absurd h.1 (by decide)⟩
  intro v hv
  simp only [List.mem_append, List.mem_replicate] at hv
  omega

theorem witness_ResetMeetsTheInvariants : demo.wf ∧ demoMax4.wf := by decide

theorem inv_wrapped : Inv (submit .A1 ⟨0x07, 0, []⟩ (onRing wrapped)) :=
  ⟨by decide, ringInv_wrapped, fun _ => rfl, rfl, by decide, by decide⟩

theorem witness_StepsKeepTheInvariants :
    ∃ s t, Inv s ∧ step s = .next t ∧ Command.wf ⟨0xFF, 0, [1]⟩ :=
  ⟨_, _, inv_wrapped, rfl, by decide⟩

theorem witness_NothingStopsTheBlock : ∃ s, Inv s ∧ s.rb.length = 3 ∧ ready s .A1 = true := ⟨_, inv_wrapped, rfl, rfl⟩

theorem witness_ConfigurationNeverChanges : ∃ t, step twoWaiting = .next t := ⟨_, rfl⟩

theorem witness_ControlStateIsWrittenOnlyByItsCommands :
    (∃ t, exec (.rbEnq [5]) (onRing full) = .next t ∧ t.rb.capacity ≠ full.capacity) ∧
    (∃ t, exec .connRst (faulted base) = .next t ∧ t.dec.dstate ≠ (faulted base).dec.dstate) ∧
    (∃ t, exec .rxCmpen base = .next t ∧ t.compressEn ≠ base.compressEn) ∧
    (∃ t, exec .connRst (compressed base) = .next t ∧ t.compressEn ≠ (compressed base).compressEn) ∧
    (∃ t, exec .rbLock base = .next t ∧ t.lockOwner ≠ base.lockOwner) ∧
    ∃ t, exec .rbUnlock (setLock (some .A0) base) = .next t ∧ t.lockOwner ≠ (setLock (some .A0) base).lockOwner :=
  ⟨⟨_, rfl, by decide⟩, ⟨_, rfl, by decide⟩, ⟨_, rfl, by decide⟩, ⟨_, rfl, by decide⟩, ⟨_, rfl, by decide⟩, _, rfl, by decide⟩

/-- The same live bytes with another stale byte in another allocation, and another currentByte and bitMask. -/
theorem witness_UnspecifiedValuesAreUnobservable :
    ∃ s t, RingInv s.cfg s.rb ∧ RingInv t.cfg t.rb ∧ SameSpecified s t ∧ s ≠ t :=
  ⟨onRing wrapped, setDecoder ⟨8, 0xAA, 0x55, 0, .ready⟩ (onRing ⟨4, 2, 1, 3, [(0, 5), (2, 3), (3, 4)], 7⟩), ringInv_wrapped,
    by constructor <;> decide, ⟨⟨rfl, rfl, rfl, rfl, [3, 4, 5], rfl, rfl⟩, ⟨rfl, fun _ => ⟨rfl, rfl, rfl⟩⟩, rfl⟩,
    fun h => absurd (congrArg (fun s => s.dec.currentByte) h) (by decide)⟩

/-- The first and the last address of storage, the first past it, and a canonical memory. -/
theorem witness_StorageIsAnArrayOfCapacityBytes :
    0 < (Ring.fresh demo).capacity ∧ 3 < (Ring.fresh demo).capacity ∧ (Ring.fresh demo).capacity ≤ 4 ∧
    Memory.read (Ring.fresh demo).storage 3 = none ∧ Memory.wf three.storage ∧ 3 < three.capacity ∧ 2 ≠ 3 := by decide

/-- Two live bytes that nothing has written: a state no run reaches, and the least capacity. -/
theorem witness_CommandsCompleteWhateverTheStorageHolds :
    1 ≤ (onRing ⟨2, 0, 0, 2, [], 0⟩).rb.capacity ∧ 1 ≤ (onRing ⟨1, 0, 0, 0, [], 0⟩).rb.capacity := by decide

end Sys2Proof.Tests
end

section
/-! SUPPORT. What a command can come to, said once for all twelve (R48, R130, R131), and what a tree given as integers is held as (R9, R10). -/

namespace Sys2Proof.Machine

/-! ### Everything a command can do -/

/-- The units a command that completes OK may have written before it answers (40_ring_buffer.md to 42_receive_path.md). -/
inductive UnitsWritten (s : State) : State → Prop where
  | nothing : UnitsWritten s s
  | ring (rb : Ring) : UnitsWritten s (setRing rb s)
  | decoder (d : Decoder) : UnitsWritten s (setDecoder d s)
  | ringAndDecoder (rb : Ring) (d : Decoder) : UnitsWritten s (setDecoder d (setRing rb s))
  | lock (owner : Option Agent) : UnitsWritten s (setLock owner s)
  | compress : UnitsWritten s (setCompress s)
  | connection : UnitsWritten s (resetConnection s)

/-- The ways a command that is not held completes: with OK, with a precise fault (R132), or with an overflow (R133). -/
inductive Completes (i : Instr) (s : State) : State → Prop where
  | ok {u : State} (written : UnitsWritten s u) (value : Nat) (out : List Byte) (more : Bool) :
      Completes i s (finish value out more u)
  | precise (code : FaultCode) (info : FaultInfo) : Completes i s (takePrecise (cmdByteOf i) code info s)
  | overflow (info : FaultInfo) (value : Nat) (out : List Byte) :
      Completes i s (takeFault (cmdByteOf i) .decompressOverflow info value out (overflowDecoder s))

/-- The common checks add only the hold and the fault of a denied command to what the command's own rule can do. -/
theorem guarded_next_cases {i : Instr} {rule : State → Result} {s t : State} (h : guarded i rule s = .next t)
    (hrule : rule s = .next t → Completes i s t) :
    (permitted s.issuer i = true ∧ held s.issuer i s.lockOwner = true ∧ t = s) ∨ Completes i s t := by
  rcases guarded_cases i rule s with ⟨_, e⟩ | ⟨hp, hh, e⟩ | ⟨_, _, e⟩ <;> rw [e] at h
  · cases h; exact .inr (.precise _ _)
  · cases h; exact .inl ⟨hp, hh, rfl⟩
  · exact .inr (hrule h)

/-- The second half of RX_FEED completes or stops. -/
theorem storePayload_completes {chunk payload : List Byte} {d : Decoder} {more : Bool} {s t : State}
    (h : storePayload chunk payload d more s = .next t) : Completes (.rxFeed chunk) s t := by
  unfold storePayload at h
  split at h <;> cases h
  · exact .precise _ _
  · exact .ok (.ringAndDecoder _ _) _ _ _

/-- Everything a command can do, where it does not stop the block: it is held and changes nothing, or it completes. -/
theorem exec_next_cases {i : Instr} {s t : State} (h : exec i s = .next t) :
    (permitted s.issuer i = true ∧ held s.issuer i s.lockOwner = true ∧ t = s) ∨ Completes i s t := by
  cases i <;> simp only [exec, execRbEnq, execRbDeq, execRbPeek, execRbClr, execRbIdx, execRbLen, execRbLock, execRbUnlock,
    execHdDec, execRxCmpen, execRxFeed, execConnRst] at h
  case rbEnq data =>
    refine guarded_next_cases h fun h => ?_
    split at h
    · cases h; exact .ok .nothing _ _ _
    · split at h <;> cases h
      · exact .precise _ _
      · exact .ok (.ring _) _ _ _
  case rbDeq maxLen =>
    refine guarded_next_cases h fun h => ?_
    split at h <;> cases h
    exact .ok (.ring _) _ _ _
  case rbPeek maxLen =>
    refine guarded_next_cases h fun h => ?_
    split at h <;> cases h
    exact .ok .nothing _ _ _
  case rbClr => exact guarded_next_cases h fun h => by cases h; exact .ok (.ring _) _ _ _
  case rbIdx n =>
    refine guarded_next_cases h fun h => ?_
    split at h
    · split at h <;> cases h
      exact .ok .nothing _ _ _
    · cases h; exact .precise _ _
  case rbLen => exact guarded_next_cases h fun h => by cases h; exact .ok .nothing _ _ _
  case rbLock =>
    refine guarded_next_cases h fun h => ?_
    split at h <;> cases h
    · exact .precise _ _
    · exact .ok (.lock _) _ _ _
  case rbUnlock =>
    refine guarded_next_cases h fun h => ?_
    split at h <;> cases h
    · exact .ok (.lock _) _ _ _
    · exact .precise _ _
  case hdDec cap chunk =>
    refine guarded_next_cases h fun h => ?_
    split at h <;> cases h
    · exact .precise _ _
    · exact .overflow _ _ _
    · exact .ok (.decoder _) _ _ _
  case rxCmpen => exact guarded_next_cases h fun h => by cases h; exact .ok .compress _ _ _
  case rxFeed chunk =>
    refine guarded_next_cases h fun h => ?_
    split at h
    · split at h
      · cases h; exact .precise _ _
      · cases h; exact .overflow _ _ _
      · exact storePayload_completes h
    · exact storePayload_completes h
  case connRst => exact guarded_next_cases h fun h => by cases h; exact .ok .connection _ _ _

/-! ### The configuration (R7, R51) -/

theorem UnitsWritten.keeps_cfg {s u : State} (h : UnitsWritten s u) : u.cfg = s.cfg := by cases h <;> simp

theorem Completes.keeps_cfg {i : Instr} {s t : State} (h : Completes i s t) : t.cfg = s.cfg := by
  cases h with
  | ok written => simpa using written.keeps_cfg
  | precise => simp
  | overflow => simp

theorem exec_keeps_cfg {i : Instr} {s t : State} (h : exec i s = .next t) : t.cfg = s.cfg := by
  rcases exec_next_cases h with ⟨_, _, rfl⟩ | hc
  · rfl
  · exact hc.keeps_cfg

theorem serve_keeps_cfg {c : Command} {s t : State} (h : serve c s = .next t) : t.cfg = s.cfg := by
  rcases serve_cases c s with ⟨i, _, e⟩ | ⟨_, e⟩ | ⟨_, e⟩ <;> rw [e] at h
  · exact exec_keeps_cfg h
  · cases h; simp
  · cases h

theorem step_keeps_cfg {s t : State} (h : step s = .next t) : t.cfg = s.cfg := by
  rcases step_cases s with ⟨_, e⟩ | ⟨a, c, _, _, _, _, e⟩ <;> rw [e] at h
  · cases h; rfl
  · exact (serve_keeps_cfg h).trans (accept_cfg s a)

/-! ### Trees (R9, R10, R30) -/

/-- A stored entry lies in R9's range, for that is what 9 bits hold (R10). -/
theorem treeEntry_bounds (t : Tree) (n : Fin treeNodes) (b : Bool) : -256 ≤ treeEntry t n b ∧ treeEntry t n b ≤ 255 :=
  ⟨BitVec.le_toInt _, Int.le_of_lt_add_one BitVec.toInt_lt⟩

/-- 9 bits hold every value of R9's range exactly. -/
theorem toInt_ofInt_nine {v : Int} (hlo : -256 ≤ v) (hhi : v ≤ 255) : (BitVec.ofInt 9 v).toInt = v :=
  BitVec.toInt_ofInt_eq_self (by decide) hlo (by omega)

/-- A well-formed tree is held exactly: entry `2*n + b` reads back (R10, R30). -/
theorem treeEntry_ofInts {tree : List Int} (h : treeWellFormed tree) (n : Fin treeNodes) (b : Bool) :
    tree[2 * n.val + b.toNat]? = some (treeEntry (Tree.ofInts tree h.1) n b) := by
  have hlt : 2 * n.val + b.toNat < tree.length := by
    have := n.isLt; have := b.toNat_le; have := h.1; simp only [treeNodes, treeSlots] at *; omega
  obtain ⟨hlo, hhi⟩ := h.2 _ (List.getElem_mem hlt)
  simp [treeEntry, Tree.ofInts, List.getElem?_eq_getElem hlt, toInt_ofInt_nine hlo hhi]

/-! ### Settling the configuration (R7, R147) -/

theorem exceedsMax_eq_false_iff (c : Config) (n : Nat) :
    c.exceedsMax n = false ↔ ∀ m, c.maxCapacity = some m → n ≤ m := by
  unfold Config.exceedsMax
  split <;> simp_all

theorem ofParameters_of_not_treeWellFormed {tree : List Int} (h : ¬ treeWellFormed tree) (initCapacity : Nat)
    (maxCapacity : Option Nat) (stageCap : Nat) :
    Config.ofParameters tree initCapacity maxCapacity stageCap = .error .treeNotWellFormed := dif_neg h

theorem ofParameters_of_treeWellFormed {tree : List Int} (h : treeWellFormed tree) {initCapacity : Nat}
    {maxCapacity : Option Nat} {stageCap : Nat}
    (hc : (⟨Tree.ofInts tree h.1, initCapacity, maxCapacity, stageCap⟩ : Config).wf) :
    Config.ofParameters tree initCapacity maxCapacity stageCap =
      .ok ⟨Tree.ofInts tree h.1, initCapacity, maxCapacity, stageCap⟩ := by
  obtain ⟨hpos, hmax⟩ := hc
  rw [Config.ofParameters, dif_pos h]
  simp [hmax, Nat.ne_of_gt hpos]

end Sys2Proof.Machine
end

section
/-! The statements of 00_scope.md. -/

namespace Sys2Proof.Proofs

open Sys2Proof.Machine

/-- Settles O50: a tree's entries are 9-bit numbers, which hold exactly R9's values. -/
theorem onlyWellFormedTreesAreAccepted : Obligations.OnlyWellFormedTreesAreAccepted := by
  intro tree initCapacity maxCapacity stageCap
  refine ⟨fun h => ofParameters_of_not_treeWellFormed h _ _ _, fun hlen hrange hpos hmax => ?_,
    fun c n b => treeEntry_bounds c.tree n b⟩
  have hc : (⟨Tree.ofInts tree hlen, initCapacity, maxCapacity, stageCap⟩ : Config).wf :=
    ⟨hpos, (exceedsMax_eq_false_iff _ _).2 hmax⟩
  exact ⟨_, ofParameters_of_treeWellFormed ⟨hlen, hrange⟩ hc, hc, rfl, rfl, rfl, treeEntry_ofInts ⟨hlen, hrange⟩⟩

/-- Settles O55: no command writes the configuration, and taking a request does not either. -/
theorem configurationNeverChanges : Obligations.ConfigurationNeverChanges :=
  fun _ _ => step_keeps_cfg

end Sys2Proof.Proofs
end

section
/-! SUPPORT. What each command writes, command by command, and what it therefore keeps (10_state.md R17, R23, R28 to R33). -/

namespace Sys2Proof.Machine

open Sys2Proof.Safety

/-! ### Bit steps (R29, R98, R99) -/

/-- A bit step that does not overflow moves the cursor past one bit and to a node, and a sentinel drops the rest of the byte. -/
theorem bitStep_some_cases {t : Tree} {cap : Nat} {d d' : Decoder} {out out' : List Byte}
    (h : bitStep t cap d out = some (d', out')) :
    d' = { shiftCursor d with bitPosition := 8, treeNode := 0 } ∨ ∃ n, d' = { shiftCursor d with treeNode := n } := by
  unfold bitStep at h
  split at h
  · cases h; exact .inl rfl
  · split at h <;> cases h
    exact .inr ⟨0, rfl⟩
  · cases h; exact .inr ⟨_, rfl⟩

theorem bitStep_keeps_dstate {t : Tree} {cap : Nat} {d d' : Decoder} {out out' : List Byte}
    (h : bitStep t cap d out = some (d', out')) : d'.dstate = d.dstate := by
  rcases bitStep_some_cases h with rfl | ⟨_, rfl⟩ <;> rfl

/-- Mask and position move together, so the mask is still 0x80 shifted by the position. -/
theorem shiftCursor_bitMask {d : Decoder} (hlt : d.bitPosition.val < 8)
    (hm : d.bitMask = (0x80 : Byte) >>> d.bitPosition.val) :
    (shiftCursor d).bitMask = (0x80 : Byte) >>> (shiftCursor d).bitPosition.val := by
  have hs : (d.bitPosition + 1).val = d.bitPosition.val + 1 := Fin.val_add_one_of_lt hlt
  simp only [shiftCursor]
  rw [hs, hm, BitVec.shiftRight_add]

theorem fetchByte_cursorInv (b : Byte) (d : Decoder) : CursorInv (fetchByte b d) :=
  fun _ _ => (BitVec.ushiftRight_zero _).symm

theorem bitStep_cursorInv {t : Tree} {cap : Nat} {d d' : Decoder} {out out' : List Byte} (hr : d.dstate = .ready)
    (hlt : d.bitPosition.val < 8) (hd : CursorInv d) (h : bitStep t cap d out = some (d', out')) : CursorInv d' := by
  rcases bitStep_some_cases h with rfl | ⟨_, rfl⟩
  · exact fun _ h8 => absurd h8 (Nat.lt_irrefl 8)
  · exact fun _ _ => shiftCursor_bitMask hlt (hd hr hlt)

/-! ### Where a decoder call that consumes its input leaves D (R100, R103) -/

theorem drainByte_keeps_dstate {t : Tree} {cap fuel : Nat} {d d' : Decoder} {out out' : List Byte}
    (h : drainByte t cap fuel d out = .consumed d' out') : d'.dstate = d.dstate := by
  induction fuel generalizing d out with
  | zero => cases h; rfl
  | succ fuel ih =>
    simp only [drainByte] at h
    split at h
    · cases h; rfl
    · split at h
      · cases h
      · rename_i hstep
        exact (ih h).trans (bitStep_keeps_dstate hstep)

theorem decodeLoop_consumed {t : Tree} {cap : Nat} {input : List Byte} {d d' : Decoder} {out out' : List Byte}
    (h : decodeLoop t cap input d out = .consumed d' out') : d'.bitPosition = 8 ∧ d'.dstate = d.dstate := by
  induction input generalizing d out with
  | nil => exact ⟨drainByte_eight_ends h, drainByte_keeps_dstate h⟩
  | cons b rest ih =>
    simp only [decodeLoop] at h
    split at h
    · cases h
    · rename_i hdrain
      obtain ⟨h8, hs⟩ := ih h
      have hd := drainByte_keeps_dstate hdrain
      exact ⟨h8, hs.trans hd⟩

/-- From any state of D, at a byte boundary or not: a call that consumes its input found D READY and leaves it READY, at a
byte boundary (R103). -/
theorem decompress_done {t : Tree} {input : List Byte} {cap : Nat} {d d' : Decoder} {out : List Byte}
    (h : decompress t input cap d = .done d' out) : d'.bitPosition = 8 ∧ d'.dstate = .ready ∧ d.dstate = .ready := by
  unfold decompress at h
  split at h
  · cases h
  · rename_i hready
    split at h <;> cases h
    rename_i hloop
    obtain ⟨h8, hs⟩ := decodeLoop_consumed hloop
    exact ⟨h8, hs.trans hready, hready⟩

/-! ### The ring's capacity (R17, R69 to R71), with no invariant -/

@[simp] theorem append_capacity (rb : Ring) (data : List Byte) : (append rb data).capacity = rb.capacity := rfl
@[simp] theorem clearRing_capacity (rb : Ring) : (clearRing rb).capacity = rb.capacity := rfl
@[simp] theorem consume_capacity (rb : Ring) (n : Nat) : (consume rb n).capacity = rb.capacity := by
  unfold consume; split <;> [rfl; (split <;> rfl)]

theorem grow_capacity {rb r : Ring} {n : Nat} (h : grow rb n = .ok r) : r.capacity = n := by
  unfold grow at h
  split at h <;> cases h
  rfl

/-- Making room leaves the capacity or raises it. -/
theorem makeRoom_capacity_le {c : Config} {rb r : Ring} {n : Nat} (h : makeRoom c rb n = .room r) :
    rb.capacity ≤ r.capacity := by
  unfold makeRoom at h
  split at h
  · rename_i hgrow
    split at h
    · cases h
    · split at h <;> cases h
      rename_i hr
      have hneed := ((mustGrow_iff _ _).1 hgrow).2
      have hle := le_grownCapacity (rb.length + n)
      rw [grow_capacity hr]
      omega
  · cases h; exact Nat.le_refl _

/-! ### The counts of RB_DEQ and RB_PEEK (R79, R80) -/

theorem dequeueCount_le_length (maxLen : Arg) (rb : Ring) : dequeueCount maxLen rb ≤ rb.length := Nat.min_le_right _ _

theorem peekCount_le_length (maxLen : Arg) (rb : Ring) : peekCount maxLen rb ≤ rb.length :=
  (Nat.min_le_right _ _).trans (Nat.min_le_left _ _)

theorem peekCount_le_segment (maxLen : Arg) (rb : Ring) : peekCount maxLen rb ≤ rb.capacity - rb.head :=
  (Nat.min_le_right _ _).trans (Nat.min_le_right _ _)

/-! ### Storing a payload (R23) -/

/-- Storing a payload, with growth or without, keeps the ring invariants (R23). -/
theorem append_room_inv {c : Config} {rb r : Ring} (h : RingInv c rb) {data : List Byte}
    (hr : makeRoom c rb data.length = .room r) : RingInv c (append r data) := by
  obtain ⟨xs, hx⟩ := contents_of_inv h
  rcases makeRoom_spec h hx data.length with ⟨_, _, he⟩ | ⟨_, he, _, _, hlen, hfit, _, hinv, _⟩
  · rw [hr] at he; cases he
  · rw [hr] at he; cases he
    exact append_inv hinv (hlen ▸ hfit)

/-! ### Everything a command writes before it answers OK -/

/-- The payload RX_FEED enqueues for a chunk and the decoder it leaves (R121): the chunk itself, or what it decompresses to. -/
inductive ReceivedAs (s : State) (chunk : List Byte) : List Byte → Decoder → Prop where
  | plain (off : s.compressEn = false) : ReceivedAs s chunk chunk s.dec
  | decoded {payload : List Byte} {d : Decoder} (on : s.compressEn = true)
      (done : decompress s.cfg.tree chunk s.cfg.stageCap s.dec = .done d payload) : ReceivedAs s chunk payload d

/-- The state a command answered with OK leaves, but for its response: `UnitsWritten` with the command named and each
value given. -/
inductive CommandWrites (s : State) : Instr → State → Prop where
  | nothing (i : Instr) : CommandWrites s i s
  | enqueued {data : List Byte} {r : Ring} (room : makeRoom s.cfg s.rb data.length = .room r) :
      CommandWrites s (.rbEnq data) (setRing (append r data) s)
  | dequeued (maxLen : Arg) :
      CommandWrites s (.rbDeq maxLen) (setRing (consume s.rb (dequeueCount maxLen s.rb)) s)
  | cleared : CommandWrites s .rbClr (setRing (clearRing s.rb) s)
  | locked (free : s.lockOwner = none) : CommandWrites s .rbLock (setLock (some s.issuer) s)
  | unlocked (own : s.lockOwner = some s.issuer) : CommandWrites s .rbUnlock (setLock none s)
  | decoded {cap : Arg} {chunk out : List Byte} {d : Decoder}
      (done : decompress s.cfg.tree chunk (argNat cap) s.dec = .done d out) :
      CommandWrites s (.hdDec cap chunk) (setDecoder d s)
  | compression : CommandWrites s .rxCmpen (setCompress s)
  | fed {chunk payload : List Byte} {d : Decoder} {r : Ring} (received : ReceivedAs s chunk payload d)
      (room : makeRoom s.cfg s.rb payload.length = .room r) :
      CommandWrites s (.rxFeed chunk) (setDecoder d (setRing (append r payload) s))
  | connection : CommandWrites s .connRst (resetConnection s)

/-- The ways a command ends: held (R49), with OK, with a precise fault (R132), or with an overflow (R133). -/
inductive CommandEnds (i : Instr) (s : State) : State → Prop where
  | held : CommandEnds i s s
  | ok {u : State} (writes : CommandWrites s i u) (value : Nat) (out : List Byte) (more : Bool) :
      CommandEnds i s (finish value out more u)
  | precise (code : FaultCode) (info : FaultInfo) : CommandEnds i s (takePrecise (cmdByteOf i) code info s)
  | overflow (info : FaultInfo) (value : Nat) (out : List Byte) :
      CommandEnds i s (takeFault (cmdByteOf i) .decompressOverflow info value out (overflowDecoder s))

/-- A command ends by the common checks or by its own rule, which runs only where the command is not held. -/
theorem guarded_ends {i : Instr} {rule : State → Result} {s t : State} (h : guarded i rule s = .next t)
    (hrule : Machine.held s.issuer i s.lockOwner = false → rule s = .next t → CommandEnds i s t) : CommandEnds i s t := by
  rcases guarded_cases i rule s with ⟨_, e⟩ | ⟨_, _, e⟩ | ⟨_, hh, e⟩ <;> rw [e] at h
  · cases h; exact .precise _ _
  · cases h; exact .held
  · exact hrule hh h

/-- A command of `LOCKED_OPS` that is not held, from an agent that is not the owner, finds the lock free (R49). -/
theorem lockOwner_none_of_not_held {i : Instr} {a : Agent} {owner : Option Agent} (hl : lockedOp i = true)
    (hh : held a i owner = false) (hne : owner ≠ some a) : owner = none := by
  cases owner with
  | none => rfl
  | some b =>
    have hheld : held a i (some b) = true := held_of_other hl fun e => hne (congrArg some e)
    exact absurd (hheld.symm.trans hh) Bool.noConfusion

theorem storePayload_ends {chunk payload : List Byte} {d : Decoder} {more : Bool} {s t : State}
    (hrec : ReceivedAs s chunk payload d) (h : storePayload chunk payload d more s = .next t) :
    CommandEnds (.rxFeed chunk) s t := by
  unfold storePayload at h
  split at h <;> cases h
  · exact .precise _ _
  · rename_i hroom
    exact .ok (.fed hrec hroom) _ _ _

/-- Everything a command can do, where it does not stop the block. -/
theorem exec_ends {i : Instr} {s t : State} (h : exec i s = .next t) : CommandEnds i s t := by
  cases i <;> simp only [exec, execRbEnq, execRbDeq, execRbPeek, execRbClr, execRbIdx, execRbLen, execRbLock, execRbUnlock,
    execHdDec, execRxCmpen, execRxFeed, execConnRst] at h <;> refine guarded_ends h fun hheld h => ?_
  case rbEnq =>
    split at h
    · cases h; exact .ok (.nothing _) _ _ _
    · split at h <;> cases h
      · exact .precise _ _
      · exact .ok (.enqueued ‹_›) _ _ _
  case rbDeq => split at h <;> cases h; exact .ok (.dequeued _) _ _ _
  case rbPeek => split at h <;> cases h; exact .ok (.nothing _) _ _ _
  case rbClr => cases h; exact .ok .cleared _ _ _
  case rbIdx =>
    split at h
    · split at h <;> cases h
      exact .ok (.nothing _) _ _ _
    · cases h; exact .precise _ _
  case rbLen => cases h; exact .ok (.nothing _) _ _ _
  case rbLock =>
    split at h <;> cases h
    · exact .precise _ _
    · exact .ok (.locked (lockOwner_none_of_not_held (i := .rbLock) rfl hheld ‹_›)) _ _ _
  case rbUnlock =>
    split at h <;> cases h
    · exact .ok (.unlocked ‹_›) _ _ _
    · exact .precise _ _
  case hdDec =>
    split at h <;> cases h
    · exact .precise _ _
    · exact .overflow _ _ _
    · exact .ok (.decoded ‹_›) _ _ _
  case rxCmpen => cases h; exact .ok .compression _ _ _
  case rxFeed =>
    split at h
    · split at h
      · cases h; exact .precise _ _
      · cases h; exact .overflow _ _ _
      · exact storePayload_ends (.decoded ‹_› ‹_›) h
    · exact storePayload_ends (.plain (by simpa using ‹¬ s.compressEn = true›)) h
  case connRst => cases h; exact .ok .connection _ _ _

/-! ### The invariants (R23, R33, R103) through one update -/

theorem ReceivedAs.boundaryInv {s : State} {chunk payload : List Byte} {d : Decoder} (h : ReceivedAs s chunk payload d)
    (hs : BoundaryInv s.dec) : BoundaryInv d := by
  cases h with
  | plain => exact hs
  | decoded _ done => exact fun _ => (decompress_done done).1

theorem inv_setRing {s : State} (h : Inv s) {rb : Ring} (hr : RingInv s.cfg rb) : Inv (setRing rb s) :=
  { h with ring := hr }

theorem inv_setDecoder {s : State} (h : Inv s) {d : Decoder} (hd : BoundaryInv d) : Inv (setDecoder d s) :=
  { h with decoder := hd }

theorem inv_overflowDecoder {s : State} (h : Inv s) : Inv (overflowDecoder s) :=
  { h with decoder := fun hready => DState.noConfusion hready }

theorem inv_resetConnection {s : State} (h : Inv s) : Inv (resetConnection s) :=
  { h with ring := reallocate_inv h.cfg_wf s.rb, decoder := fun _ => rfl }

theorem inv_finish {s : State} (h : Inv s) (value : Nat) (out : List Byte) (more : Bool) : Inv (finish value out more s) :=
  { h with }

theorem inv_takeFault {s : State} (h : Inv s) (cmd : Byte) (code : FaultCode) (info : FaultInfo) (value : Nat)
    (out : List Byte) : Inv (takeFault cmd code info value out s) :=
  { h with seen := by simp }

theorem CommandWrites.inv {s u : State} {i : Instr} (hw : CommandWrites s i u) (h : Inv s) : Inv u := by
  cases hw with
  | nothing => exact h
  | enqueued room => exact inv_setRing h (append_room_inv h.ring room)
  | dequeued => exact inv_setRing h (consume_inv h.ring (dequeueCount_le_length _ _))
  | cleared => exact inv_setRing h (clearRing_inv h.ring)
  | locked => exact { h with }
  | unlocked => exact { h with }
  | decoded done => exact inv_setDecoder h fun _ => (decompress_done done).1
  | compression => exact { h with }
  | fed received room =>
    exact inv_setDecoder (inv_setRing h (append_room_inv h.ring room)) (received.boundaryInv h.decoder)
  | connection => exact inv_resetConnection h

theorem exec_keeps_inv {i : Instr} {s t : State} (h : Inv s) (he : exec i s = .next t) : Inv t := by
  cases exec_ends he with
  | held => exact h
  | ok writes => exact inv_finish (writes.inv h) _ _ _
  | precise => exact inv_takeFault h _ _ _ _ _
  | overflow => exact inv_takeFault (inv_overflowDecoder h) _ _ _ _ _

/-! ### The invariants through a step and an arrival (R48, R54) -/

theorem serve_keeps_inv {c : Command} {s t : State} (h : Inv s) (hs : serve c s = .next t) : Inv t := by
  rcases serve_cases c s with ⟨i, _, e⟩ | ⟨_, e⟩ | ⟨_, e⟩ <;> rw [e] at hs
  · exact exec_keeps_inv h hs
  · cases hs; exact inv_takeFault h _ _ _ _ _
  · cases hs

theorem inv_queueOf {s : State} (h : Inv s) (a : Agent) : ∀ c ∈ queueOf s a, c.wf := by
  cases a with
  | A0 => exact h.queue0
  | A1 => exact h.queue1

theorem inv_setQueue {s : State} (h : Inv s) (a : Agent) {q : List Command} (hq : ∀ c ∈ q, c.wf) : Inv (setQueue s a q) := by
  cases a with
  | A0 => exact { h with queue0 := hq }
  | A1 => exact { h with queue1 := hq }

theorem inv_spendTurn {s : State} (h : Inv s) : Inv (spendTurn s) where
  cfg_wf := by simpa using h.cfg_wf
  ring := by simpa using h.ring
  decoder := by simpa using h.decoder
  seen := by simpa using h.seen
  queue0 := by simpa using h.queue0
  queue1 := by simpa using h.queue1

theorem inv_accept {s : State} (h : Inv s) (a : Agent) : Inv (accept s a) :=
  { inv_setQueue (inv_spendTurn h) a fun c hc => inv_queueOf h a c (List.mem_of_mem_tail hc) with }

theorem step_keeps_inv {s t : State} (h : Inv s) (hs : step s = .next t) : Inv t := by
  rcases step_cases s with ⟨_, e⟩ | ⟨a, c, _, _, _, _, e⟩ <;> rw [e] at hs
  · cases hs; exact h
  · exact serve_keeps_inv (inv_accept h a) hs

theorem inv_submit {s : State} (h : Inv s) (a : Agent) {c : Command} (hc : c.wf) : Inv (submit a c s) :=
  inv_setQueue h a fun x hx => by
    rcases List.mem_append.1 hx with hx | hx
    · exact inv_queueOf h a x hx
    · exact List.mem_singleton.1 hx ▸ hc

/-! ### The fault log (R33, R137) -/

/-- FLOG grows by at most one record, and FAULT_SEEN stays set. -/
def FaultLogGrows (s t : State) : Prop :=
  ∃ l, t.flog = s.flog ++ l ∧ l.length ≤ 1 ∧ (s.faultSeen = true → t.faultSeen = true)

theorem faultLogGrows_of_same {s t : State} (hl : t.flog = s.flog) (hf : t.faultSeen = s.faultSeen) : FaultLogGrows s t :=
  ⟨[], by simpa using hl, Nat.zero_le 1, fun h => hf.trans h⟩

/-- A fault adds its record, where the state it is taken in has the log of the state before the command. -/
theorem faultLogGrows_takeFault {s u : State} (hu : u.flog = s.flog) (cmd : Byte) (code : FaultCode) (info : FaultInfo)
    (value : Nat) (out : List Byte) : FaultLogGrows s (takeFault cmd code info value out u) :=
  ⟨[⟨u.issuer, cmd, code, info⟩], by simp [hu], Nat.le_refl 1, fun _ => rfl⟩

theorem UnitsWritten.keeps_flog {s u : State} (h : UnitsWritten s u) : u.flog = s.flog := by cases h <;> simp

theorem UnitsWritten.keeps_faultSeen {s u : State} (h : UnitsWritten s u) : u.faultSeen = s.faultSeen := by
  cases h <;> simp

theorem Completes.faultLogGrows {i : Instr} {s t : State} (h : Completes i s t) : FaultLogGrows s t := by
  cases h with
  | ok written => exact faultLogGrows_of_same written.keeps_flog written.keeps_faultSeen
  | precise => exact faultLogGrows_takeFault rfl _ _ _ _ _
  | overflow => exact faultLogGrows_takeFault (overflowDecoder_flog s) _ _ _ _ _

theorem serve_faultLogGrows {c : Command} {s t : State} (h : serve c s = .next t) : FaultLogGrows s t := by
  rcases serve_cases c s with ⟨i, _, e⟩ | ⟨_, e⟩ | ⟨_, e⟩ <;> rw [e] at h
  · rcases exec_next_cases h with ⟨_, _, rfl⟩ | hc
    · exact faultLogGrows_of_same rfl rfl
    · exact hc.faultLogGrows
  · cases h; exact faultLogGrows_takeFault rfl _ _ _ _ _
  · cases h

theorem step_faultLogGrows {s t : State} (h : step s = .next t) : FaultLogGrows s t := by
  rcases step_cases s with ⟨_, e⟩ | ⟨a, c, _, _, _, _, e⟩ <;> rw [e] at h
  · cases h; exact faultLogGrows_of_same rfl rfl
  · simpa [FaultLogGrows] using serve_faultLogGrows h

/-! ### Who writes the capacity, dstate, COMPRESS_EN and the lock (R17, R28, R31, R32) -/

theorem CommandWrites.capacity {s u : State} {i : Instr} (hw : CommandWrites s i u) (hne : u.rb.capacity ≠ s.rb.capacity) :
    i = .connRst ∨ (s.rb.capacity < u.rb.capacity ∧ ((∃ data, i = .rbEnq data) ∨ ∃ chunk, i = .rxFeed chunk)) := by
  cases hw with
  | enqueued room =>
    have hle := makeRoom_capacity_le room
    exact .inr ⟨Nat.lt_of_le_of_ne hle hne.symm, .inl ⟨_, rfl⟩⟩
  | fed _ room =>
    have hle := makeRoom_capacity_le room
    exact .inr ⟨Nat.lt_of_le_of_ne hle hne.symm, .inr ⟨_, rfl⟩⟩
  | connection => exact .inl rfl
  | _ => simp at hne

theorem ReceivedAs.dstate {s : State} {chunk payload : List Byte} {d : Decoder} (h : ReceivedAs s chunk payload d) :
    d.dstate = s.dec.dstate := by
  cases h with
  | plain => rfl
  | decoded _ done =>
    obtain ⟨_, hafter, hbefore⟩ := decompress_done done
    exact hafter.trans hbefore.symm

/-- A command answered with OK changes dstate only as CONN_RST, to READY. -/
theorem CommandWrites.dstate {s u : State} {i : Instr} (hw : CommandWrites s i u) (hne : u.dec.dstate ≠ s.dec.dstate) :
    u.dec.dstate = .ready ∧ i = .connRst := by
  cases hw with
  | decoded done =>
    obtain ⟨_, hafter, hbefore⟩ := decompress_done done
    exact absurd (hafter.trans hbefore.symm) hne
  | fed received => exact absurd received.dstate hne
  | connection => exact ⟨rfl, rfl⟩
  | _ => simp at hne

theorem CommandWrites.compressEn {s u : State} {i : Instr} (hw : CommandWrites s i u) (hne : u.compressEn ≠ s.compressEn) :
    (u.compressEn = true ∧ i = .rxCmpen) ∨ (u.compressEn = false ∧ i = .connRst) := by
  cases hw with
  | compression => exact .inl ⟨rfl, rfl⟩
  | connection => exact .inr ⟨rfl, rfl⟩
  | _ => simp at hne

theorem CommandWrites.lockOwner {s u : State} {i : Instr} (hw : CommandWrites s i u) (hne : u.lockOwner ≠ s.lockOwner) :
    (s.lockOwner = none ∧ u.lockOwner = some s.issuer ∧ i = .rbLock) ∨
      (s.lockOwner = some s.issuer ∧ u.lockOwner = none ∧ i = .rbUnlock) := by
  cases hw with
  | locked free => exact .inl ⟨free, rfl, rfl⟩
  | unlocked own => exact .inr ⟨own, rfl, rfl⟩
  | _ => simp at hne

/-! ### Where there is any storage, a command answers (R17, R21) -/

/-- The common checks never stop the block. -/
theorem guarded_answers {i : Instr} {rule : State → Result} {s : State} (h : ∃ t, rule s = .next t) :
    ∃ t, guarded i rule s = .next t := by
  rcases guarded_cases i rule s with ⟨_, e⟩ | ⟨_, _, e⟩ | ⟨_, _, e⟩ <;> rw [e]
  · exact ⟨_, rfl⟩
  · exact ⟨_, rfl⟩
  · exact h

theorem storePayload_answers {s : State} (hpos : 0 < s.rb.capacity) (chunk payload : List Byte) (d : Decoder) (more : Bool) :
    ∃ t, storePayload chunk payload d more s = .next t := by
  unfold storePayload
  rcases makeRoom_of_capacity_pos s.cfg hpos payload.length with e | ⟨r, e⟩ <;> rw [e] <;> exact ⟨_, rfl⟩

theorem exec_answers {s : State} (hpos : 0 < s.rb.capacity) (i : Instr) : ∃ t, exec i s = .next t := by
  have hcontents := contents_of_capacity_pos hpos
  cases i <;> simp only [exec, execRbEnq, execRbDeq, execRbPeek, execRbClr, execRbIdx, execRbLen, execRbLock, execRbUnlock,
    execHdDec, execRxCmpen, execRxFeed, execConnRst] <;> refine guarded_answers ?_
  case rbEnq data =>
    split
    · exact ⟨_, rfl⟩
    · rcases makeRoom_of_capacity_pos s.cfg hpos data.length with e | ⟨r, e⟩ <;> rw [e] <;> exact ⟨_, rfl⟩
  case rbDeq maxLen =>
    rw [readLive_contents hcontents (dequeueCount_le_length maxLen s.rb)]
    exact ⟨_, rfl⟩
  case rbPeek maxLen =>
    rw [readSegment_contents hcontents (peekCount_le_length maxLen s.rb) (peekCount_le_segment maxLen s.rb)]
    exact ⟨_, rfl⟩
  case rbIdx n =>
    split
    · rw [live, memRead_of_lt (liveAddress_lt hpos _)]
      exact ⟨_, rfl⟩
    · exact ⟨_, rfl⟩
  case rbLock => split <;> exact ⟨_, rfl⟩
  case rbUnlock => split <;> exact ⟨_, rfl⟩
  case hdDec cap chunk => split <;> exact ⟨_, rfl⟩
  case rxFeed chunk =>
    split
    · split
      · exact ⟨_, rfl⟩
      · exact ⟨_, rfl⟩
      · exact storePayload_answers hpos _ _ _ _
    · exact storePayload_answers hpos _ _ _ _
  case rbClr | rbLen | rxCmpen | connRst => exact ⟨_, rfl⟩

/-! ### One byte written to storage (R21, R40) -/

theorem storageByte_write {rb : Ring} (hw : rb.storage.wf) (a c : Nat) (b : Byte) :
    storageByte { rb with storage := rb.storage.write a b } c = if c = a then b else storageByte rb c := by
  simp only [storageByte, Memory.read_write _ _ _ _ hw]
  split <;> rfl

theorem memRead_write_same {rb : Ring} (hw : rb.storage.wf) {a : Nat} (ha : a < rb.capacity) (b : Byte) :
    memRead { rb with storage := rb.storage.write a b } a = .ok b := by
  rw [memRead_of_lt (by exact ha), storageByte_write hw, if_pos rfl]

theorem memRead_write_other {rb : Ring} (hw : rb.storage.wf) {a c : Nat} (hne : c ≠ a) (b : Byte) :
    memRead { rb with storage := rb.storage.write a b } c = memRead rb c := by
  simp only [memRead, storageByte_write hw, if_neg hne]

end Sys2Proof.Machine
end

section
/-! The statements of 10_state.md. -/

namespace Sys2Proof.Proofs

open Sys2Proof.Machine

/-- Settles O53: each update a command makes keeps the invariants, and so do taking a request and its arrival. -/
theorem stepsKeepTheInvariants : Obligations.StepsKeepTheInvariants :=
  ⟨fun _ _ => step_keeps_inv, fun _ a _ h hc => inv_submit h a hc⟩

/-- Settles O16: only taking a fault writes FLOG, and it appends one record. -/
theorem faultLogOnlyGrows : Obligations.FaultLogOnlyGrows :=
  fun _ _ => step_faultLogGrows

/-- Settles O34: a bit step shifts the mask and the position together. -/
theorem bitStepsKeepTheCursorInvariant : Obligations.BitStepsKeepTheCursorInvariant :=
  ⟨fetchByte_cursorInv, fun _ _ _ _ _ _ hr hlt hd h =>
    ⟨bitStep_cursorInv hr hlt hd h, (bitStep_keeps_dstate h).trans hr⟩⟩

/-- Settles O56: a command that is held or faults precisely writes none of the four, an overflow writes dstate alone, and
what a command answered with OK writes is `CommandWrites`. -/
theorem controlStateIsWrittenOnlyByItsCommands : Obligations.ControlStateIsWrittenOnlyByItsCommands := by
  intro i s t h
  cases exec_ends h with
  | held => exact ⟨absurd rfl, absurd rfl, absurd rfl, absurd rfl⟩
  | ok writes => exact ⟨writes.capacity, fun hne => .inl (writes.dstate hne), writes.compressEn, writes.lockOwner⟩
  | precise => exact ⟨absurd rfl, absurd rfl, absurd rfl, absurd rfl⟩
  | overflow => exact ⟨absurd rfl, fun _ => .inr ⟨rfl, _, rfl, rfl⟩, absurd rfl, absurd rfl⟩

/-- Settles O59: every read a command makes lies below the capacity, where every byte has a value. -/
theorem commandsCompleteWhateverTheStorageHolds : Obligations.CommandsCompleteWhateverTheStorageHolds :=
  fun _ hpos i => exec_answers hpos i

/-- Settles O51, by the definition of power-on reset. -/
theorem powerOnResetState : Obligations.PowerOnResetState :=
  ⟨fun _ => ⟨rfl, rfl, rfl, rfl, rfl, rfl, rfl, rfl, rfl, rfl, rfl, rfl⟩, rfl⟩

/-- Settles O58: reads below the capacity, past it, and after a write. -/
theorem storageIsAnArrayOfCapacityBytes : Obligations.StorageIsAnArrayOfCapacityBytes := fun _ _ =>
  ⟨fun ha => ⟨_, memRead_of_lt ha, storageByte_of_unwritten⟩, memRead_of_le,
    fun b _ hw ha => ⟨memRead_write_same hw ha b, fun hne => memRead_write_other hw hne b⟩⟩

end Sys2Proof.Proofs
end

section
/-! SUPPORT. The two fields of a command byte and the byte a decoded command came from (R57, R58, R62), which bytes the hold rule
and the permission table name (R49, R138), and taking the next request (R48, R49). -/

namespace Sys2Proof.Machine

/-! ### The command byte and its command (R57 to R62) -/

theorem rsvField_toNat (cmd : Byte) : (rsvField cmd).toNat = cmd.toNat / 16 := by
  have hlt := cmd.isLt
  simp only [rsvField, BitVec.extractLsb'_toNat, Nat.shiftRight_eq_div_pow]
  omega

theorem opField_toNat (cmd : Byte) : (opField cmd).toNat = cmd.toNat % 16 := by
  simp [opField, BitVec.extractLsb'_toNat]

/-- With the reserved field 0, the byte is its opcode. -/
theorem toNat_eq_of_rsvField_zero {cmd : Byte} (h : rsvField cmd = 0) : cmd.toNat = (opField cmd).toNat := by
  have hrsv : cmd.toNat / 16 = 0 := by rw [← rsvField_toNat, h]; rfl
  rw [opField_toNat]
  omega

theorem withData_eq_instr {data : List Byte} {i j : Instr} (h : withData data i = .instr j) : i = j := by
  unfold withData at h
  split at h <;> cases h
  rfl

theorem opcodeOf_of_decodeOp {op : BitVec 4} {arg : Arg} {data : List Byte} {i : Instr}
    (h : decodeOp op arg data = .instr i) : opcodeOf i = op := by
  unfold decodeOp at h
  split at h
  case h_1 hop | h_9 hop | h_11 hop =>
    obtain rfl := withData_eq_instr h
    exact BitVec.eq_of_toNat_eq hop.symm
  case h_13 => cases h
  all_goals
    cases h
    exact BitVec.eq_of_toNat_eq (Eq.symm ‹op.toNat = _›)

theorem cmdByteOf_toNat (i : Instr) : (cmdByteOf i).toNat = (opcodeOf i).toNat := by cases i <;> rfl

/-- A request that decodes carries the byte of its command (R57, R58). -/
theorem cmdByteOf_of_decode {c : Command} {i : Instr} (h : decode c = .instr i) : cmdByteOf i = c.cmd := by
  rw [decode_eq, decodeByte] at h
  split at h
  · cases h
  · rename_i hrsv
    apply BitVec.eq_of_toNat_eq
    rw [cmdByteOf_toNat, opcodeOf_of_decodeOp h, toNat_eq_of_rsvField_zero (not_not.1 hrsv)]

/-- The bytes 0x01 to 0x0C are commands, where the port can carry their DATA_IN (R54, R58). -/
theorem decode_of_legal_byte {c : Command} (hd : c.wf) (hlo : 1 ≤ c.cmd.toNat) (hhi : c.cmd.toNat ≤ 12) :
    ∃ i, decode c = .instr i := by
  have hrsv : rsvField c.cmd = 0 := BitVec.eq_of_toNat_eq (by rw [rsvField_toNat]; exact Nat.div_eq_of_lt (by omega))
  have hop : (opField c.cmd).toNat = c.cmd.toNat := (toNat_eq_of_rsvField_zero hrsv).symm
  rw [decode_eq, decodeByte, if_neg (not_not.2 hrsv), decodeOp]
  split
  case h_1 | h_9 | h_11 => exact ⟨_, withData_ok hd _⟩
  case h_13 =>
    exfalso
    simp only [imp_false] at *
    omega
  all_goals exact ⟨_, rfl⟩

/-! ### Which commands the hold rule and the permission table name (R49, R138) -/

/-- `LOCKED_OPS` by command byte (R49). -/
theorem lockedOp_iff (i : Instr) :
    lockedOp i = true ↔ cmdByteOf i ∈ [0x01, 0x02, 0x03, 0x04, 0x05, 0x06, 0x07, 0x0B, 0x0C] := by
  cases i <;> simp [lockedOp, cmdByteOf]

/-- The commands A1 may not issue, by command byte (R138). -/
theorem ownerOnly_iff (i : Instr) : ownerOnly i = true ↔ cmdByteOf i ∈ [0x09, 0x0A, 0x0B, 0x0C] := by
  cases i <;> simp [ownerOnly, cmdByteOf]

theorem permitted_of_not_ownerOnly {i : Instr} (h : ownerOnly i = false) (a : Agent) : permitted a i = true := by
  cases a <;> simp [permitted, h]

theorem lockedOp_of_held {a : Agent} {i : Instr} {owner : Option Agent} (h : held a i owner = true) :
    lockedOp i = true := (Bool.and_eq_true_iff.1 h).1

theorem requestHeld_iff (a : Agent) (c : Command) (owner : Option Agent) :
    requestHeld a c owner = true ↔ ∃ i, decode c = .instr i ∧ permitted a i = true ∧ held a i owner = true := by
  unfold requestHeld
  cases decode c <;> simp

/-- A request with a byte of `LOCKED_OPS` that its agent may issue is held while the other agent owns the lock (R49). -/
theorem requestHeld_of_locked_byte {a b : Agent} {c : Command} (hd : c.wf)
    (hc : c.cmd ∈ [0x01, 0x02, 0x03, 0x04, 0x05, 0x06, 0x07, 0x0B, 0x0C])
    (ha : a = .A0 ∨ c.cmd ∉ [0x09, 0x0A, 0x0B, 0x0C]) (hne : b ≠ a) : requestHeld a c (some b) = true := by
  obtain ⟨hlo, hhi⟩ := (by decide : ∀ x ∈ ([0x01, 0x02, 0x03, 0x04, 0x05, 0x06, 0x07, 0x0B, 0x0C] : List Byte),
    1 ≤ x.toNat ∧ x.toNat ≤ 12) _ hc
  obtain ⟨i, hi⟩ := decode_of_legal_byte hd hlo hhi
  rw [← cmdByteOf_of_decode hi] at hc ha
  have hp : permitted a i = true := by
    rcases ha with rfl | ha
    · exact permitted_A0 i
    · exact permitted_of_not_ownerOnly (Bool.eq_false_iff.2 (mt (ownerOnly_iff i).1 ha)) a
  exact (requestHeld_iff _ _ _).2 ⟨i, hi, hp, held_of_other ((lockedOp_iff i).2 hc) hne⟩

/-- The three commands outside `LOCKED_OPS` are never held, whoever issues them (R49). -/
theorem requestHeld_of_unlocked_byte {c : Command} (hc : c.cmd ∈ [0x08, 0x09, 0x0A]) (a : Agent) (owner : Option Agent) :
    requestHeld a c owner = false := by
  rw [Bool.eq_false_iff, ne_eq, requestHeld_iff]
  rintro ⟨i, hi, _, hheld⟩
  have hlocked := (lockedOp_iff i).1 (lockedOp_of_held hheld)
  rw [cmdByteOf_of_decode hi] at hlocked
  exact (by decide : ∀ x ∈ ([0x08, 0x09, 0x0A] : List Byte),
    x ∉ ([0x01, 0x02, 0x03, 0x04, 0x05, 0x06, 0x07, 0x0B, 0x0C] : List Byte)) _ hc hlocked

/-- A command of `LOCKED_OPS` that its agent may issue changes nothing while the other agent owns the lock (R49, R134). -/
theorem exec_of_other_owner {i : Instr} {s : State} {b : Agent} (hl : lockedOp i = true)
    (hp : permitted s.issuer i = true) (ho : s.lockOwner = some b) (hne : b ≠ s.issuer) : exec i s = .next s :=
  exec_held hp (ho ▸ held_of_other hl hne)

/-! ### A command that is not held completes with one response (R55, R126) -/

theorem UnitsWritten.keeps_responses {s u : State} (h : UnitsWritten s u) : u.responses = s.responses := by
  cases h <;> simp

theorem UnitsWritten.keeps_issuer {s u : State} (h : UnitsWritten s u) : u.issuer = s.issuer := by cases h <;> simp

/-- Completing adds one response, to the issuer. -/
theorem Completes.one_response {i : Instr} {s t : State} (h : Completes i s t) :
    ∃ r, t.responses = s.responses ++ [r] ∧ r.agent = s.issuer := by
  cases h with
  | ok written => exact ⟨_, by rw [finish_responses, written.keeps_responses], written.keeps_issuer⟩
  | precise => exact ⟨_, rfl, rfl⟩
  | overflow => exact ⟨_, rfl, rfl⟩

/-- A command outside `LOCKED_OPS` reads no storage, so it answers in every state. -/
theorem exec_answers_of_unlockedOp {i : Instr} (h : lockedOp i = false) (s : State) : ∃ t, exec i s = .next t := by
  cases i
  case rbUnlock =>
    rw [exec, execRbUnlock]
    refine guarded_answers ?_
    split <;> exact ⟨_, rfl⟩
  case hdDec =>
    rw [exec, execHdDec]
    refine guarded_answers ?_
    split <;> exact ⟨_, rfl⟩
  case rxCmpen =>
    rw [exec, execRxCmpen]
    exact guarded_answers ⟨_, rfl⟩
  all_goals cases h

/-- Whoever owns the lock, a command outside `LOCKED_OPS` completes (R49). -/
theorem exec_responds_of_unlockedOp {i : Instr} (h : lockedOp i = false) (s : State) :
    ∃ t, exec i s = .next t ∧ t.responses.length = s.responses.length + 1 := by
  obtain ⟨t, ht⟩ := exec_answers_of_unlockedOp h s
  rcases exec_next_cases ht with ⟨_, hheld, _⟩ | hcompletes
  · cases h.symm.trans (lockedOp_of_held hheld)
  · obtain ⟨r, hr, _⟩ := hcompletes.one_response
    exact ⟨t, ht, by simp [hr]⟩

/-! ### Who is served next, and what is taken (R48, R49, R54) -/

theorem ready_of_queueOf {s : State} {a : Agent} {c : Command} {rest : List Command} (hq : queueOf s a = c :: rest) :
    ready s a = !requestHeld a c s.lockOwner := by simp [ready, hq]

/-- The listed choice is served, where it can be. -/
theorem arbitrate_of_ready {s : State} {a : Agent} (h : ready s a = true) (ht : nextTurn s = a) : arbitrate s = some a := by
  unfold arbitrate
  cases a with
  | A0 => rw [h]; cases ready s .A1 <;> simp [ht]
  | A1 => rw [h]; cases ready s .A0 <;> simp [ht]

theorem step_serves {s : State} {a : Agent} {c : Command} {rest : List Command} (h : arbitrate s = some a)
    (hq : queueOf s a = c :: rest) : step s = serve c (accept s a) := by simp [step, h, hq]

theorem spendTurn_eq (s : State) : spendTurn s = { s with
    turns := if contended s then s.turns.tail else s.turns
    draws := if contended s && s.turns.isEmpty then s.draws + 1 else s.draws } := by
  unfold spendTurn
  cases contended s with
  | false => rfl
  | true => cases h : s.turns <;> simp [drawn, h]

/-- The state in which a request runs: out of its queue, its agent latched, a choice spent. -/
theorem accept_eq {s : State} {a : Agent} {c : Command} {rest : List Command} (hq : queueOf s a = c :: rest) :
    accept s a = { s with
      issuer := a
      queueA0 := if a = .A0 then rest else s.queueA0
      queueA1 := if a = .A1 then rest else s.queueA1
      turns := if contended s then s.turns.tail else s.turns
      draws := if contended s && s.turns.isEmpty then s.draws + 1 else s.draws } := by
  rw [accept, spendTurn_eq, hq]
  cases a <;> rfl

/-- Where every oldest request is held, the block hangs (R50, R150). -/
theorem step_of_all_held {s : State} (h : ∀ (a : Agent) (c : Command) (rest : List Command), queueOf s a = c :: rest →
    requestHeld a c s.lockOwner = true) : step s = .next s := by
  rcases step_cases s with ⟨_, e⟩ | ⟨a, c, rest, _, hq, hfree, _⟩
  · exact e
  · cases hfree.symm.trans (h a c rest hq)

end Sys2Proof.Machine
end

section
/-! The statements of 20_memory.md. -/

namespace Sys2Proof.Proofs

open Sys2Proof.Machine

/-- Settles O8: the list of turns that names the agent. -/
theorem everyInterleavingIsAdmitted : Obligations.EveryInterleavingIsAdmitted := by
  intro s a c rest hq hfree
  have hserved : arbitrate { s with turns := [a] } = some a :=
    arbitrate_of_ready ((ready_iff _ a).2 ⟨c, rest, hq, hfree⟩) rfl
  refine ⟨[a], step_serves hserved hq, ?_, fun b hb => ?_⟩
  · rw [queueOf_accept, if_pos rfl]
    exact congrArg List.tail hq
  · rw [queueOf_accept, if_neg hb]
    rfl

/-- Settles O9: the common checks come before each command's own rule, and of the commands only RB_UNLOCK frees the lock. -/
theorem holdRule : Obligations.HoldRule := by
  refine ⟨fun s b ho hne => ?_, fun s => ?_, fun s a b c rest hq hd ho hne hc harb => ?_,
    fun s a c rest hq hc => ?_, fun s t b i ho he hfreed => ?_⟩
  · have hany : ∀ i, lockedOp i = true → ownerOnly i = false → exec i s = .next s := fun i hl hp =>
      exec_of_other_owner hl (permitted_of_not_ownerOnly hp _) ho hne
    have hA0 : s.issuer = .A0 → ∀ i, lockedOp i = true → exec i s = .next s := fun hi i hl =>
      exec_of_other_owner hl (hi ▸ permitted_A0 i) ho hne
    exact ⟨fun _ => hany _ rfl rfl, fun _ => hany _ rfl rfl, fun _ => hany _ rfl rfl, hany _ rfl rfl,
      fun _ => hany _ rfl rfl, hany _ rfl rfl, hany _ rfl rfl, fun hi => ⟨fun _ => hA0 hi _ rfl, hA0 hi _ rfl⟩⟩
  · exact ⟨exec_responds_of_unlockedOp rfl s, exec_responds_of_unlockedOp rfl s,
      fun _ _ => exec_responds_of_unlockedOp rfl s⟩
  · have hproducer : ∀ x ∈ ([0x01, 0x02, 0x03, 0x04, 0x05, 0x06, 0x07] : List Byte),
        x ∉ ([0x09, 0x0A, 0x0B, 0x0C] : List Byte) := by decide
    have hheld : requestHeld a c s.lockOwner = true := by
      rw [ho]
      rcases hc with hc | ⟨rfl, hc⟩
      · exact requestHeld_of_locked_byte hd (List.mem_append_left [0x0B, 0x0C] hc) (.inr (hproducer _ hc)) hne
      · exact requestHeld_of_locked_byte hd (List.mem_append_right [0x01, 0x02, 0x03, 0x04, 0x05, 0x06, 0x07] hc)
          (.inl rfl) hne
    have hready := (arbitrate_some harb).1
    rw [ready_of_queueOf hq, hheld] at hready
    cases hready
  · rw [ready_of_queueOf hq, requestHeld_of_unlocked_byte hc]
    rfl
  · obtain ⟨_, _, _, hlock⟩ := controlStateIsWrittenOnlyByItsCommands i s t he
    rcases hlock (ho ▸ hfreed) with ⟨hfree, _⟩ | ⟨hown, _, hi⟩
    · cases ho.symm.trans hfree
    · exact ⟨hi, Option.some.inj (hown.symm.trans ho)⟩

/-- Settles O7: the arbiter's choice, then `accept`, then the decoded command. -/
theorem stepRunsTheDecodedCommand : Obligations.StepRunsTheDecodedCommand := by
  intro s a c rest i harb hq hi
  rw [step_serves harb hq, accept_eq hq]
  simp only [serve, hi]

/-- Settles O11: an idle block is the case with no request to be held. -/
theorem unreleasedLockIsAHang : Obligations.UnreleasedLockIsAHang := by
  refine ⟨fun s h0 h1 => step_of_all_held fun a c rest hq => ?_, fun _ => step_of_all_held⟩
  cases a with
  | A0 => cases h0.symm.trans hq
  | A1 => cases h1.symm.trans hq

end Sys2Proof.Proofs
end

section
/-! SUPPORT. The decoder against the encoder (R57 to R62), the bytes that are no command (R59, R60), and how large a value a
command can answer (R55, R56). -/

namespace Sys2Proof.Machine

open Sys2Proof.Safety

/-! ### What decodes, and to what (R57, R58, R61) -/

theorem withData_eq_instr_iff (data : List Byte) (i j : Instr) : withData data i = .instr j ↔ dataFits data ∧ i = j := by
  unfold withData
  split <;> simp [*]

/-- A command the opcode map reads has its used operands from the request, and its DATA_IN fits the port (R54, R58). -/
theorem operands_of_decodeOp {op : BitVec 4} {arg : Arg} {data : List Byte} {i : Instr}
    (h : decodeOp op arg data = .instr i) :
    i.wf = true ∧ (usesArg i = true → argOf i = arg) ∧ (usesData i = true → dataOf i = data) := by
  unfold decodeOp at h
  split at h
  case h_1 | h_9 | h_11 =>
    obtain ⟨hfits, rfl⟩ := (withData_eq_instr_iff _ _ _).1 h
    exact ⟨decide_eq_true hfits, by simp [usesArg, argOf], fun _ => rfl⟩
  case h_13 => cases h
  all_goals
    cases h
    exact ⟨rfl, by simp [usesArg, argOf], by simp [usesData]⟩

theorem operands_of_decode {c : Command} {i : Instr} (h : decode c = .instr i) :
    i.wf = true ∧ (usesArg i = true → argOf i = c.arg) ∧ (usesData i = true → dataOf i = c.data) := by
  rw [decode_eq, decodeByte] at h
  split at h
  · cases h
  · exact operands_of_decodeOp h

/-- The byte of a command names its row of the opcode map, with any operands beside it. -/
theorem decode_cmdByteOf (i : Instr) (arg : Arg) (data : List Byte) :
    decode ⟨cmdByteOf i, arg, data⟩ = decodeOp (opcodeOf i) arg data := by
  have hrsv : rsvField (cmdByteOf i) = 0 := BitVec.eq_of_toNat_eq (by
    rw [rsvField_toNat, cmdByteOf_toNat]
    exact Nat.div_eq_of_lt (opcodeOf i).isLt)
  have hop : opField (cmdByteOf i) = opcodeOf i := BitVec.eq_of_toNat_eq (by
    rw [← toNat_eq_of_rsvField_zero hrsv, cmdByteOf_toNat])
  rw [decode_eq, decodeByte, if_neg (not_not.2 hrsv), hop]

/-- The byte of a well-formed command and the operands it uses decode to it, whatever the others hold (R61). -/
theorem decode_of_operands {c : Command} {i : Instr} (hcmd : cmdByteOf i = c.cmd) (hwf : i.wf = true)
    (harg : usesArg i = true → argOf i = c.arg) (hdata : usesData i = true → dataOf i = c.data) :
    decode c = .instr i := by
  obtain ⟨cmd, arg, data⟩ := c
  obtain rfl : cmdByteOf i = cmd := hcmd
  rw [decode_cmdByteOf]
  cases i
  case rbEnq bytes | rxFeed bytes =>
    obtain rfl : bytes = data := hdata rfl
    exact withData_ok (of_decide_eq_true hwf) _
  case hdDec cap chunk =>
    obtain rfl : cap = arg := harg rfl
    obtain rfl : chunk = data := hdata rfl
    exact withData_ok (of_decide_eq_true hwf) _
  case rbDeq n | rbPeek n | rbIdx n =>
    obtain rfl : n = arg := harg rfl
    rfl
  all_goals rfl

/-- A request decodes to a command exactly where it carries its byte and its used operands, and the port can carry them. -/
theorem decode_eq_instr_iff (c : Command) (i : Instr) :
    decode c = .instr i ↔ cmdByteOf i = c.cmd ∧ i.wf = true ∧ (usesArg i = true → argOf i = c.arg) ∧
      (usesData i = true → dataOf i = c.data) :=
  ⟨fun h => ⟨cmdByteOf_of_decode h, operands_of_decode h⟩,
    fun ⟨hcmd, hwf, harg, hdata⟩ => decode_of_operands hcmd hwf harg hdata⟩

theorem argOf_of_unused {i : Instr} (h : usesArg i = false) : argOf i = 0 := by
  cases i
  case rbDeq | rbPeek | rbIdx | hdDec => cases h
  all_goals rfl

theorem dataOf_of_unused {i : Instr} (h : usesData i = false) : dataOf i = [] := by
  cases i
  case rbEnq | hdDec | rxFeed => cases h
  all_goals rfl

/-! ### The bytes that are no command (R59, R60) -/

theorem decode_of_illegal_byte {c : Command} (h : c.cmd.toNat = 0 ∨ 12 < c.cmd.toNat) :
    decode c = .reservedBits ∨ decode c = .reservedOpcode := by
  rw [decode_eq, decodeByte]
  split
  · exact .inl rfl
  · rename_i hrsv
    rw [toNat_eq_of_rsvField_zero (not_not.1 hrsv)] at h
    rw [decodeOp]
    split
    case h_13 => exact .inr rfl
    all_goals omega

theorem serve_of_reserved {c : Command} (h : decode c = .reservedBits ∨ decode c = .reservedOpcode) (s : State) :
    serve c s = .next (takePrecise c.cmd .illegalCommand (.commandByte c.cmd) s) := by
  rcases h with h | h <;> simp only [serve, h]

theorem requestHeld_of_reserved {c : Command} (h : decode c = .reservedBits ∨ decode c = .reservedOpcode) (a : Agent)
    (owner : Option Agent) : requestHeld a c owner = false := by
  rcases h with h | h <;> simp only [requestHeld, h]

/-! ### How large a value a command can answer (R55, R56) -/

/-- Where `t` has one response more than `s`, its value is below the bound. -/
def AnswersBelow (bound : Nat) (s t : State) : Prop := ∀ r, t.responses = s.responses ++ [r] → r.value < bound

theorem answersBelow_self (bound : Nat) (s : State) : AnswersBelow bound s s := fun r h => by simp at h

theorem answersBelow_finish {bound value : Nat} {s u : State} (hu : u.responses = s.responses) (hv : value < bound)
    (out : List Byte) (more : Bool) : AnswersBelow bound s (finish value out more u) := fun r h => by
  rw [finish_responses, hu] at h
  obtain rfl := List.singleton_inj.1 (List.append_cancel_left h)
  exact hv

theorem answersBelow_takeFault {bound value : Nat} {s u : State} (hu : u.responses = s.responses) (hv : value < bound)
    (cmd : Byte) (code : FaultCode) (info : FaultInfo) (out : List Byte) :
    AnswersBelow bound s (takeFault cmd code info value out u) := fun r h => by
  rw [takeFault_responses, hu] at h
  obtain rfl := List.singleton_inj.1 (List.append_cancel_left h)
  exact hv

theorem answersBelow_takePrecise {bound : Nat} (hb : 0 < bound) (cmd : Byte) (code : FaultCode) (info : FaultInfo)
    (s : State) : AnswersBelow bound s (takePrecise cmd code info s) :=
  answersBelow_takeFault rfl hb cmd code info []

/-- The common checks answer value 0 or nothing (R129, R134). -/
theorem guarded_answersBelow {bound : Nat} (hb : 0 < bound) {i : Instr} {rule : State → Result} {s t : State}
    (h : guarded i rule s = .next t) (hrule : rule s = .next t → AnswersBelow bound s t) : AnswersBelow bound s t := by
  rcases guarded_cases i rule s with ⟨_, e⟩ | ⟨_, _, e⟩ | ⟨_, _, e⟩ <;> rw [e] at h
  · cases h; exact answersBelow_takePrecise hb _ _ _ _
  · cases h; exact answersBelow_self _ _
  · exact hrule h

/-- No more bytes are live than MAX_CAPACITY (R17, R23). -/
theorem length_le_maxCapacity {c : Config} {rb : Ring} {m : Nat} (h : RingInv c rb) (hm : c.maxCapacity = some m) :
    rb.length ≤ m :=
  h.length_le.trans ((exceedsMax_eq_false_iff c rb.capacity).1 h.capacity_max m hm)

/-- A payload that finds room is no longer than MAX_CAPACITY (R71). -/
theorem payload_le_maxCapacity {c : Config} {rb r : Ring} {m : Nat} {data : List Byte} (h : RingInv c rb)
    (hm : c.maxCapacity = some m) (hr : makeRoom c rb data.length = .room r) : data.length ≤ m :=
  calc data.length ≤ (append r data).length := Nat.le_add_left _ _
    _ ≤ m := length_le_maxCapacity (append_room_inv h hr) hm

/-- A call that consumes its input yields no more symbols than its capacity (R93). -/
theorem length_le_of_decompress_done {t : Tree} {input out : List Byte} {cap : Nat} {d d' : Decoder} (hb : BoundaryInv d)
    (h : decompress t input cap d = .done d' out) : out.length ≤ cap := by
  rcases decompress_spec t input cap d hb with ⟨_, e⟩ | ⟨_, hle, _, e, _⟩ | ⟨_, _, e⟩ <;> rw [e] at h <;> cases h
  exact hle

/-- A call that overflows yields no more symbols than its capacity (R93). -/
theorem length_le_of_decompress_overflow {t : Tree} {input out : List Byte} {cap : Nat} {d : Decoder} (hb : BoundaryInv d)
    (h : decompress t input cap d = .overflow out) : out.length ≤ cap := by
  rcases decompress_spec t input cap d hb with ⟨_, e⟩ | ⟨_, _, _, e, _⟩ | ⟨_, _, e⟩ <;> rw [e] at h <;> cases h
  exact List.length_take_le _ _

section
variable {s : State} (hs : Inv s) {m : Nat} (hm : s.cfg.maxCapacity = some m) (hlt : m < 2 ^ 32)
include hs hm hlt

theorem storePayload_answersBelow {chunk payload : List Byte} {d : Decoder} {more : Bool} {t : State}
    (h : storePayload chunk payload d more s = .next t) : AnswersBelow (2 ^ 32) s t := by
  unfold storePayload at h
  split at h <;> cases h
  · exact answersBelow_takePrecise (by decide) _ _ _ _
  · exact answersBelow_finish rfl ((payload_le_maxCapacity hs.ring hm ‹_›).trans_lt hlt) _ _

/-- Every value is a count of live bytes, of bytes just stored or of symbols within ARG, a byte, or 0. -/
theorem exec_answersBelow {i : Instr} {t : State} (h : exec i s = .next t) : AnswersBelow (2 ^ 32) s t := by
  have hzero : 0 < 2 ^ 32 := by decide
  have hlive : ∀ {n}, n ≤ s.rb.length → n < 2 ^ 32 := fun hn =>
    (hn.trans (length_le_maxCapacity hs.ring hm)).trans_lt hlt
  cases i <;> simp only [exec, execRbEnq, execRbDeq, execRbPeek, execRbClr, execRbIdx, execRbLen, execRbLock, execRbUnlock,
    execHdDec, execRxCmpen, execRxFeed, execConnRst] at h <;> refine guarded_answersBelow hzero h fun hrule => ?_
  case rbEnq =>
    split at hrule
    · cases hrule; exact answersBelow_finish rfl hzero _ _
    · split at hrule <;> cases hrule
      · exact answersBelow_takePrecise hzero _ _ _ _
      · exact answersBelow_finish rfl ((payload_le_maxCapacity hs.ring hm ‹_›).trans_lt hlt) _ _
  case rbDeq => split at hrule <;> cases hrule; exact answersBelow_finish rfl (hlive (dequeueCount_le_length _ _)) _ _
  case rbPeek => split at hrule <;> cases hrule; exact answersBelow_finish rfl (hlive (peekCount_le_length _ _)) _ _
  case rbIdx =>
    split at hrule
    · split at hrule <;> cases hrule
      rename_i b _
      exact answersBelow_finish rfl (b.isLt.trans (by decide)) _ _
    · cases hrule; exact answersBelow_takePrecise hzero _ _ _ _
  case rbLen => cases hrule; exact answersBelow_finish rfl (hlive (Nat.le_refl _)) _ _
  case rbLock =>
    split at hrule <;> cases hrule
    · exact answersBelow_takePrecise hzero _ _ _ _
    · exact answersBelow_finish rfl hzero _ _
  case rbUnlock =>
    split at hrule <;> cases hrule
    · exact answersBelow_finish rfl hzero _ _
    · exact answersBelow_takePrecise hzero _ _ _ _
  case hdDec cap _ =>
    split at hrule <;> cases hrule
    · exact answersBelow_takePrecise hzero _ _ _ _
    · exact answersBelow_takeFault rfl ((length_le_of_decompress_overflow hs.decoder ‹_›).trans_lt cap.isLt) _ _ _ _
    · exact answersBelow_finish rfl ((length_le_of_decompress_done hs.decoder ‹_›).trans_lt cap.isLt) _ _
  case rxFeed =>
    split at hrule
    · split at hrule
      · cases hrule; exact answersBelow_takePrecise hzero _ _ _ _
      · cases hrule; exact answersBelow_takeFault rfl hzero _ _ _ _
      · exact storePayload_answersBelow hs hm hlt hrule
    · exact storePayload_answersBelow hs hm hlt hrule
  case rbClr | rxCmpen | connRst => cases hrule; exact answersBelow_finish rfl hzero _ _

end

/-! ### The pseudo-command with STAGE_CAP (R65, R66) -/

theorem stageForm_of_data {c : Config} (h : c.stageCap < 2 ^ 32) (data : List Byte) :
    stageForm c (none, some data) = .ok (.hdDec (BitVec.ofNat 32 c.stageCap) data) := by
  simp only [stageForm, hdDecStage, if_pos h]

end Sys2Proof.Machine
end

section
/-! The statements of 30_encoding.md. -/

namespace Sys2Proof.Proofs

open Sys2Proof.Machine

/-- Settles O3: an encoded command carries its byte and its operands. -/
theorem decodeOfEncodeIsTheCommand : Obligations.DecodeOfEncodeIsTheCommand :=
  fun _ hwf => decode_of_operands rfl hwf (fun _ => rfl) (fun _ => rfl)

/-- Settles O4: the used operands are the request's, and the encoder fills in the others. -/
theorem encodeOfDecodeKeepsByteAndUsedOperands : Obligations.EncodeOfDecodeKeepsByteAndUsedOperands := by
  intro c i h
  obtain ⟨hcmd, hwf, harg, hdata⟩ := (decode_eq_instr_iff c i).1 h
  refine ⟨hwf, hcmd, ?_, ?_⟩
  · split
    · exact harg ‹_›
    · exact argOf_of_unused (Bool.eq_false_iff.2 ‹_›)
  · split
    · exact hdata ‹_›
    · exact dataOf_of_unused (Bool.eq_false_iff.2 ‹_›)

/-- Settles O5: the decoded command fixes the byte and the used operands only. -/
theorem unusedOperandsAreIgnored : Obligations.UnusedOperandsAreIgnored := by
  intro c i arg data h hargSame hdataSame
  obtain ⟨hcmd, hwf, harg, hdata⟩ := (decode_eq_instr_iff c i).1 h
  exact decode_of_operands hcmd hwf (fun hu => (harg hu).trans (hargSame hu).symm)
    (fun hu => (hdata hu).trans (hdataSame hu).symm)

/-- Settles O18: see `exec_answersBelow` for what each value counts. -/
theorem valueFitsThirtyTwoBits : Obligations.ValueFitsThirtyTwoBits :=
  fun _ _ _ r _ hs hm hlt h hr => exec_answersBelow hs hm hlt h r hr

/-- Settles O1: each row evaluates, the three that use DATA_IN under the bound of the port. -/
theorem opcodeMapDecodesEveryRow : Obligations.OpcodeMapDecodesEveryRow := fun _ _ hfits =>
  ⟨rfl, withData_ok hfits _, rfl, rfl, rfl, rfl, rfl, rfl, rfl, withData_ok hfits _, rfl, withData_ok hfits _, rfl,
    rfl, rfl, rfl⟩

/-- Settles O2: an illegal byte decodes to one of the two reserved answers, which fault and are never held. -/
theorem illegalBytesFaultAndTwelveRun : Obligations.IllegalBytesFaultAndTwelveRun := by
  refine fun c s => ⟨fun hillegal => ?_, fun hlo hhi hfits => ?_⟩
  · have hreserved := decode_of_illegal_byte hillegal
    exact ⟨serve_of_reserved hreserved s, requestHeld_of_reserved hreserved⟩
  · obtain ⟨i, hi⟩ := decode_of_legal_byte hfits hlo hhi
    exact ⟨i, hi, by simp only [serve, hi]⟩

/-- Settles O6: each line is a literal and evaluates, but for the one that reads STAGE_CAP. -/
theorem assemblerExamples : Obligations.AssemblerExamples := by
  refine fun c => ⟨rfl, rfl, rfl, rfl, rfl, rfl, fun hstage => ?_, rfl, rfl, rfl, rfl⟩
  have hform : mnemonicForm c "HD_DECSTAGE".toList (none, some []) = .ok (.hdDec (BitVec.ofNat 32 c.stageCap) []) :=
    stageForm_of_data hstage []
  have hcommand : assembleCommand c .A0 "HD_DECSTAGE".toList [.openBracket, .closeBracket] =
      .ok (.A0, ⟨0x09, BitVec.ofNat 32 c.stageCap, []⟩) := by
    simp only [assembleCommand, operandTokens, dataItems, hform]
    rfl
  exact congrArg (Except.map some) hcommand

end Sys2Proof.Proofs
end

section
/-! SUPPORT. What each ring command answers where the lock allows its issuer (R77 to R84), said once, and what a
command of the FIFO law does to the live bytes (R85). -/

namespace Sys2Proof.Machine

open Sys2Proof.Safety

/-! ### Running a command's own rule (R130) -/

/-- A command that both agents may issue runs its own rule where the lock allows its issuer (R49, R138). -/
theorem guarded_of_lockAllows {i : Instr} {rule : State → Result} {s : State} (hi : ownerOnly i = false)
    (h : lockAllows s) : guarded i rule s = rule s :=
  guarded_runs (permitted_of_not_ownerOnly hi _) (held_of_lockAllows h i)

theorem lockAllows_or_other_owner (s : State) : lockAllows s ∨ ∃ b, s.lockOwner = some b ∧ b ≠ s.issuer := by
  cases h : s.lockOwner with
  | none => exact .inl (.inl h)
  | some b =>
    by_cases hb : b = s.issuer
    · exact .inl (.inr (hb ▸ h))
    · exact .inr ⟨b, rfl, hb⟩

/-- A command of `LOCKED_OPS` that changed anything was not held (R49). -/
theorem lockAllows_of_exec_ne {i : Instr} {s t : State} (hl : lockedOp i = true) (hi : ownerOnly i = false)
    (h : exec i s = .next t) (hne : t ≠ s) : lockAllows s := by
  rcases lockAllows_or_other_owner s with hs | ⟨b, ho, hb⟩
  · exact hs
  · rw [exec_of_other_owner hl (permitted_of_not_ownerOnly hi _) ho hb] at h
    cases h
    exact absurd rfl hne

/-! ### The response a command added (R55) -/

theorem newResponse_of_append {s t : State} {r : Response} (h : t.responses = s.responses ++ [r]) :
    newResponse s t = some r := by simp [newResponse, h]

theorem ne_of_newResponse {s t : State} {r : Response} (h : newResponse s t = some r) : t ≠ s := by
  rintro rfl
  simp [newResponse] at h

theorem newResponse_finish {s u : State} (hu : u.responses = s.responses) (value : Nat) (out : List Byte) (more : Bool) :
    newResponse s (finish value out more u) = some ⟨u.issuer, 0x00, value, out, more⟩ :=
  newResponse_of_append (by rw [finish_responses, hu])

theorem newResponse_takePrecise (cmd : Byte) (code : FaultCode) (info : FaultInfo) (s : State) :
    newResponse s (takePrecise cmd code info s) = some ⟨s.issuer, faultByte code, 0, [], false⟩ :=
  newResponse_of_append rfl

/-! ### Live bytes in storage (R23, R73) -/

/-- A live byte stands in storage, written. -/
theorem read_liveAddress {c : Config} {rb : Ring} {xs : List Byte} (h : RingInv c rb) (hx : contents rb = .ok xs) {k : Nat}
    (hk : k < xs.length) : rb.storage.read (liveAddress rb k) = some xs[k] := by
  obtain ⟨b, hb⟩ := Option.isSome_iff_exists.1 (h.written k (contents_length hx ▸ hk))
  have hlive := ((memRead_ok_iff _ _ _).1 (live_contents hx hk)).2
  rw [hb, ← hlive, storageByte_of_read hb]

/-- Below the end of storage the live bytes do not wrap. -/
theorem liveAddress_of_lt {rb : Ring} {k : Nat} (h : rb.head + k < rb.capacity) : liveAddress rb k = rb.head + k :=
  Nat.mod_eq_of_lt h

/-- After growth, from head 0, the live bytes stand at their own indices (R69). -/
theorem liveAddress_of_head_zero {rb : Ring} {k : Nat} (hhead : rb.head = 0) (hk : k < rb.capacity) :
    liveAddress rb k = k := by
  rw [liveAddress, hhead, Nat.zero_add, Nat.mod_eq_of_lt hk]

/-! ### Making room (R70, R71) -/

/-- The size R70 gives is the only one there is. -/
theorem isGrowthFor_iff (need newCap : Nat) : isGrowthFor need newCap ↔ newCap = grownCapacity need := by
  constructor
  · rintro ⟨hdvd, hle, hleast⟩
    exact Nat.le_antisymm (hleast _ (grownCapacity_dvd need) (le_grownCapacity need)) (grownCapacity_least need _ hdvd hle)
  · rintro rfl
    exact grownCapacity_isGrowthFor need

theorem makeRoom_of_fits (c : Config) {rb : Ring} {n : Nat} (h : rb.length + n ≤ rb.capacity) :
    makeRoom c rb n = .room rb := by
  have hm : ¬ mustGrow rb n = true := by rw [mustGrow_iff]; omega
  rw [makeRoom, if_neg hm]

section
variable {c : Config} {rb : Ring} {n : Nat} (hn : 0 < n) (hfull : rb.capacity < rb.length + n)
include hn hfull

theorem makeRoom_of_exceeds (h : c.exceedsMax (grownCapacity (rb.length + n)) = true) :
    makeRoom c rb n = .exceeded (grownCapacity (rb.length + n)) := by
  rw [makeRoom, if_pos ((mustGrow_iff _ _).2 ⟨hn, hfull⟩), if_pos h]

/-- Room made by growth: the live bytes from address 0 of a new allocation (R69). -/
theorem makeRoom_of_grows {xs : List Byte} (hx : contents rb = .ok xs)
    (h : c.exceedsMax (grownCapacity (rb.length + n)) = false) :
    ∃ storage, makeRoom c rb n =
      .room ⟨grownCapacity (rb.length + n), 0, rb.length, rb.length, storage, rb.allocation + 1⟩ := by
  have hlt : rb.length < grownCapacity (rb.length + n) := by
    have := le_grownCapacity (rb.length + n)
    omega
  obtain ⟨⟨_, _, _, _, storage, _⟩, hgrow, rfl, rfl, rfl, rfl, rfl, _⟩ := grow_spec hx hlt h
  refine ⟨storage, ?_⟩
  rw [makeRoom, if_pos ((mustGrow_iff _ _).2 ⟨hn, hfull⟩), if_neg (Bool.eq_false_iff.1 h), hgrow]

end

/-- With growth or without, the bytes stored stand behind the live ones (R72). -/
theorem contents_append_room {c : Config} {rb r : Ring} {xs data : List Byte} (h : RingInv c rb)
    (hx : contents rb = .ok xs) (hr : makeRoom c rb data.length = .room r) :
    contents (append r data) = .ok (xs ++ data) := by
  rcases makeRoom_spec h hx data.length with ⟨_, _, he⟩ | ⟨_, he, _, _, hlen, hfit, hlive, hinv, _⟩
  · rw [hr] at he; cases he
  · rw [hr] at he; cases he
    exact contents_append hinv hlive (hlen ▸ hfit)

/-! ### Dropping live bytes (R74, R79) -/

/-- Under the ring invariant a drop of no bytes needs no case of its own. -/
theorem consume_eq {c : Config} {rb : Ring} (h : RingInv c rb) (n : Nat) :
    consume rb n = { rb with
      head := if rb.length - n = 0 then 0 else (rb.head + n) % rb.capacity
      tail := if rb.length - n = 0 then 0 else rb.tail
      length := rb.length - n } := by
  by_cases hn : n = 0
  · have hhead : (if rb.length = 0 then 0 else rb.head) = rb.head := ite_eq_right_iff.2 fun h0 => (h.normal h0).1.symm
    have htail : (if rb.length = 0 then 0 else rb.tail) = rb.tail := ite_eq_right_iff.2 fun h0 => (h.normal h0).2.symm
    subst hn
    simp only [consume, if_true, Nat.sub_zero, Nat.add_zero, Nat.mod_eq_of_lt h.head_lt, hhead, htail]
  · by_cases h0 : rb.length - n = 0
    · simp [consume, hn, h0, clearRing]
    · simp [consume, hn, h0]

/-! ### What each ring command answers (R77 to R83) -/

section
variable {s : State} (hs : lockAllows s)
include hs

theorem exec_rbEnq_nil : exec (.rbEnq []) s = .next (finish 0 [] noMore s) := by
  rw [exec, execRbEnq, guarded_of_lockAllows rfl hs, if_pos List.length_nil]

theorem exec_rbEnq_of_room {data : List Byte} {r : Ring} (hn : 0 < data.length)
    (hr : makeRoom s.cfg s.rb data.length = .room r) :
    exec (.rbEnq data) s = .next (finish data.length [] noMore (setRing (append r data) s)) := by
  rw [exec, execRbEnq, guarded_of_lockAllows rfl hs, if_neg (Nat.ne_of_gt hn), hr]

theorem exec_rbEnq_of_exceeded {data : List Byte} {newCap : Nat} (hn : 0 < data.length)
    (hr : makeRoom s.cfg s.rb data.length = .exceeded newCap) :
    exec (.rbEnq data) s =
      .next (takePrecise (cmdByteOf (.rbEnq data)) .capacityExceeded (.neededCapacity newCap) s) := by
  rw [exec, execRbEnq, guarded_of_lockAllows rfl hs, if_neg (Nat.ne_of_gt hn), hr]

theorem exec_rbDeq {xs : List Byte} (hx : contents s.rb = .ok xs) (n : Arg) :
    exec (.rbDeq n) s = .next (finish (dequeueCount n s.rb) (xs.take (dequeueCount n s.rb)) noMore
      (setRing (consume s.rb (dequeueCount n s.rb)) s)) := by
  rw [exec, execRbDeq, guarded_of_lockAllows rfl hs, readLive_contents hx (dequeueCount_le_length n s.rb)]

theorem exec_rbPeek {xs : List Byte} (hx : contents s.rb = .ok xs) (n : Arg) :
    exec (.rbPeek n) s = .next (finish (peekCount n s.rb) (xs.take (peekCount n s.rb)) noMore s) := by
  rw [exec, execRbPeek, guarded_of_lockAllows rfl hs,
    readSegment_contents hx (peekCount_le_length n s.rb) (peekCount_le_segment n s.rb)]

theorem exec_rbClr : exec .rbClr s = .next (finish 0 [] noMore (setRing (clearRing s.rb) s)) := by
  rw [exec, execRbClr, guarded_of_lockAllows rfl hs]

theorem exec_rbIdx_of_lt {xs : List Byte} (hx : contents s.rb = .ok xs) {n : Arg} (hn : n.toNat < xs.length) :
    exec (.rbIdx n) s = .next (finish xs[n.toNat].toNat [] noMore s) := by
  have hin : indexInRange n s.rb = true := decide_eq_true (contents_length hx ▸ hn)
  rw [exec, execRbIdx, guarded_of_lockAllows rfl hs, if_pos hin, argNat, live_contents hx hn]

theorem exec_rbIdx_of_le {n : Arg} (hn : s.rb.length ≤ n.toNat) :
    exec (.rbIdx n) s = .next (takePrecise (cmdByteOf (.rbIdx n)) .indexOutOfRange
      (.indexAndLength (argNat n) s.rb.length) s) := by
  have hout : ¬ indexInRange n s.rb = true := fun hin =>
    Nat.not_lt.2 hn (of_decide_eq_true hin)
  rw [exec, execRbIdx, guarded_of_lockAllows rfl hs, if_neg hout]

theorem exec_rbLen : exec .rbLen s = .next (finish s.rb.length [] noMore s) := by
  rw [exec, execRbLen, guarded_of_lockAllows rfl hs]

/-- An enqueue that is not held: growth would pass MAX_CAPACITY, or the ring after it holds the old live bytes and then the
new ones (R71, R77). -/
theorem exec_rbEnq_cases {xs : List Byte} (h : RingInv s.cfg s.rb) (hx : contents s.rb = .ok xs) (data : List Byte) :
    (s.cfg.exceedsMax (grownCapacity (s.rb.length + data.length)) = true ∧
      exec (.rbEnq data) s = .next (takePrecise (cmdByteOf (.rbEnq data)) .capacityExceeded
        (.neededCapacity (grownCapacity (s.rb.length + data.length))) s)) ∨
    ∃ q, exec (.rbEnq data) s = .next (finish data.length [] noMore (setRing q s)) ∧ RingInv s.cfg q ∧
      contents q = .ok (xs ++ data) := by
  cases data with
  | nil => exact .inr ⟨s.rb, exec_rbEnq_nil hs, h, by simpa using hx⟩
  | cons b bs =>
    have hn : 0 < (b :: bs).length := Nat.succ_pos _
    rcases makeRoom_spec h hx (b :: bs).length with ⟨_, hmax, hr⟩ | ⟨r, hr, _⟩
    · exact .inl ⟨hmax, exec_rbEnq_of_exceeded hs hn hr⟩
    · exact .inr ⟨append r (b :: bs), exec_rbEnq_of_room hs hn hr, append_room_inv h hr, contents_append_room h hx hr⟩

end

/-- RX_FEED with compression off enqueues the chunk itself (R121). -/
theorem exec_rxFeed_plain {s : State} (hs : lockAllows s) (hi : s.issuer = .A0) (hc : s.compressEn = false)
    (chunk : List Byte) : exec (.rxFeed chunk) s = storePayload chunk chunk s.dec noMore s := by
  rw [exec, execRxFeed, guarded_runs (hi ▸ permitted_A0 _) (held_of_lockAllows hs _), if_neg (Bool.eq_false_iff.1 hc)]

/-! ### The lock's commands (R83, R84) -/

theorem exec_rbLock_of_free {s : State} (h : s.lockOwner = none) :
    exec .rbLock s = .next (finish 0 [] noMore (setLock (some s.issuer) s)) := by
  rw [exec, execRbLock, guarded_of_lockAllows rfl (.inl h), if_neg (by simp [h])]

theorem exec_rbLock_of_own {s : State} (h : s.lockOwner = some s.issuer) :
    exec .rbLock s = .next (takePrecise (cmdByteOf .rbLock) .lockReentry (.agent s.issuer) s) := by
  rw [exec, execRbLock, guarded_of_lockAllows rfl (.inr h), if_pos h]

/-- RB_UNLOCK is outside `LOCKED_OPS`, so its own rule runs whoever owns the lock. -/
theorem guarded_rbUnlock (rule : State → Result) (s : State) : guarded .rbUnlock rule s = rule s :=
  guarded_runs (permitted_of_not_ownerOnly rfl _) (held_of_unlockedOp rfl _ _)

theorem exec_rbUnlock_of_own {s : State} (h : s.lockOwner = some s.issuer) :
    exec .rbUnlock s = .next (finish 0 [] noMore (setLock none s)) := by
  rw [exec, execRbUnlock, guarded_rbUnlock, if_pos h]

theorem exec_rbUnlock_of_not_own {s : State} (h : s.lockOwner ≠ some s.issuer) :
    exec .rbUnlock s = .next (takePrecise (cmdByteOf .rbUnlock) .unlockNotOwner
      (.agentAndOwner s.issuer s.lockOwner) s) := by
  rw [exec, execRbUnlock, guarded_rbUnlock, if_neg h]

/-! ### The FIFO law (R85) -/

/-- Across one command or a run of them: what was live and what came in is what came out and what is live after, in order, and
the ring invariant is kept. -/
def KeepsOrder (s t : State) (ins outs : List Byte) : Prop :=
  ∀ xs, RingInv s.cfg s.rb → contents s.rb = .ok xs →
    RingInv t.cfg t.rb ∧ ∃ ys, contents t.rb = .ok ys ∧ xs ++ ins = outs ++ ys

theorem keepsOrder_of_same {s t : State} (hcfg : t.cfg = s.cfg) (hrb : t.rb = s.rb) : KeepsOrder s t [] [] :=
  fun xs h hx => ⟨hcfg ▸ hrb ▸ h, xs, hrb ▸ hx, List.append_nil xs⟩

theorem KeepsOrder.trans {s t u : State} {ins₁ outs₁ ins₂ outs₂ : List Byte} (h₁ : KeepsOrder s t ins₁ outs₁)
    (h₂ : KeepsOrder t u ins₂ outs₂) : KeepsOrder s u (ins₁ ++ ins₂) (outs₁ ++ outs₂) := fun xs h hx => by
  obtain ⟨ht, ys, hy, hxy⟩ := h₁ xs h hx
  obtain ⟨hu, zs, hz, hyz⟩ := h₂ ys ht hy
  refine ⟨hu, zs, hz, ?_⟩
  calc xs ++ (ins₁ ++ ins₂) = (xs ++ ins₁) ++ ins₂ := (List.append_assoc _ _ _).symm
    _ = outs₁ ++ (ys ++ ins₂) := by rw [hxy, List.append_assoc]
    _ = (outs₁ ++ outs₂) ++ zs := by rw [hyz, List.append_assoc]

theorem fifoCommand_checks {i : Instr} (h : fifoCommand i = true) : lockedOp i = true ∧ ownerOnly i = false := by
  cases i
  case rbEnq | rbDeq | rbPeek | rbIdx | rbLen => exact ⟨rfl, rfl⟩
  all_goals cases h

/-- Each of the five commands, answered with OK, keeps the order. -/
theorem exec_keepsOrder {i : Instr} {s t : State} {r : Response} (hi : fifoCommand i = true) (he : exec i s = .next t)
    (hr : newResponse s t = some r) (hok : r.status = 0x00) : KeepsOrder s t (bytesIn i) (bytesOut i r) := by
  intro xs h hx
  obtain ⟨hlocked, hany⟩ := fifoCommand_checks hi
  have hs : lockAllows s := lockAllows_of_exec_ne hlocked hany he (ne_of_newResponse hr)
  cases i
  case rbEnq data =>
    rcases exec_rbEnq_cases hs h hx data with ⟨_, e⟩ | ⟨q, e, hq, hlive⟩ <;> cases he.symm.trans e
    · rw [newResponse_takePrecise] at hr
      cases hr
      exact absurd hok (by decide : faultByte .capacityExceeded ≠ 0x00)
    · exact ⟨hq, _, hlive, rfl⟩
  case rbDeq n =>
    have hcount := dequeueCount_le_length n s.rb
    cases he.symm.trans (exec_rbDeq hs hx n)
    rw [newResponse_finish (setRing_responses _ s)] at hr
    cases hr
    refine ⟨consume_inv h hcount, _, contents_consume hx hcount, ?_⟩
    exact (List.append_nil xs).trans (List.take_append_drop _ xs).symm
  case rbPeek n =>
    cases he.symm.trans (exec_rbPeek hs hx n)
    exact keepsOrder_of_same rfl rfl xs h hx
  case rbIdx n =>
    obtain ⟨hcfg, hrb⟩ : t.cfg = s.cfg ∧ t.rb = s.rb := by
      rcases Nat.lt_or_ge n.toNat s.rb.length with hn | hn
      · cases he.symm.trans (exec_rbIdx_of_lt hs hx (contents_length hx ▸ hn))
        exact ⟨rfl, rfl⟩
      · cases he.symm.trans (exec_rbIdx_of_le hs hn)
        exact ⟨rfl, rfl⟩
    exact keepsOrder_of_same hcfg hrb xs h hx
  case rbLen =>
    cases he.symm.trans (exec_rbLen hs)
    exact keepsOrder_of_same rfl rfl xs h hx
  all_goals cases hi

/-- A run of ring commands is its first command, answered with OK, and the run after it. -/
theorem fifoRun_cons {a : Agent} {i : Instr} {rest : List (Agent × Instr)} {s u : State} {ins outs : List Byte}
    (h : fifoRun ((a, i) :: rest) s = some (u, ins, outs)) :
    ∃ t r ins' outs', fifoCommand i = true ∧ exec i { s with issuer := a } = .next t ∧ newResponse s t = some r ∧
      r.status = 0x00 ∧ fifoRun rest t = some (u, ins', outs') ∧
      ins = bytesIn i ++ ins' ∧ outs = bytesOut i r ++ outs' := by
  rw [fifoRun] at h
  split at h
  · split at h
    · split at h
      · split at h
        · split at h <;> cases h
          exact ⟨_, _, _, _, ‹_›, ‹_›, ‹_›, ‹_›, ‹_›, rfl, rfl⟩
        · cases h
      · cases h
    · cases h
    · cases h
  · cases h

/-- The FIFO law from any ring: the invariant R85's statement needs for its induction. -/
theorem fifoRun_keepsOrder {run : List (Agent × Instr)} {s t : State} {ins outs : List Byte}
    (h : fifoRun run s = some (t, ins, outs)) : KeepsOrder s t ins outs := by
  induction run generalizing s ins outs with
  | nil => cases h; exact keepsOrder_of_same rfl rfl
  | cons x rest ih =>
    obtain ⟨u, r, ins', outs', hi, he, hr, hok, hrun, rfl, rfl⟩ := fifoRun_cons h
    have hfirst : KeepsOrder s u (bytesIn x.2) (bytesOut x.2 r) :=
      exec_keepsOrder (s := { s with issuer := x.1 }) hi he hr hok
    exact hfirst.trans (ih hrun)

end Sys2Proof.Machine
end

section
/-! The statements of 40_ring_buffer.md. -/

namespace Sys2Proof.Proofs

open Sys2Proof.Machine Sys2Proof.Safety

/-- Settles O32: an empty ring has no live bytes to begin with, and each command of the run keeps the order. -/
theorem fifoLaw : Obligations.FifoLaw := by
  intro run s t ins outs hinv hempty hrun
  obtain ⟨_, rest, hrest, horder⟩ := fifoRun_keepsOrder hrun [] hinv (contents_of_length_zero hempty)
  exact ⟨rest, hrest, horder⟩

/-- Settles O20: the ring has room as it is, so the command is `append`. -/
theorem rbEnqThatFitsAppends : Obligations.RbEnqThatFitsAppends := by
  intro s data xs hs hinv hx hn hfit
  refine ⟨_, exec_rbEnq_of_room hs hn (makeRoom_of_fits s.cfg hfit), rfl, contents_append hinv hx hfit, ?_, ?_⟩
  · exact append_read_new hinv.canonical (by omega)
  · exact fun a => append_read_other hinv.canonical

/-- Settles O21: growth leaves head 0, so the live bytes after the append stand at their own indices. -/
theorem rbEnqThatGrowsLinearises : Obligations.RbEnqThatGrowsLinearises := by
  intro s data xs newCap hs hinv hx hn hfull hgrowth hmax
  obtain rfl := (isGrowthFor_iff _ _).1 hgrowth
  obtain ⟨storage, hr⟩ := makeRoom_of_grows hn hfull hx hmax
  have hlive := contents_append_room hinv hx hr
  refine ⟨_, exec_rbEnq_of_room hs hn hr, rfl, hlive, fun k hk => ?_⟩
  have hlt : k < grownCapacity (s.rb.length + data.length) :=
    calc k < s.rb.length + data.length := by simpa [contents_length hx] using hk
      _ ≤ grownCapacity (s.rb.length + data.length) := le_grownCapacity _
  have hread := read_liveAddress (append_room_inv hinv hr) hlive hk
  rwa [liveAddress_of_head_zero rfl hlt] at hread

/-- Settles O22: both commands ask for room first, and there is none. -/
theorem growthPastMaxCapacityFaults : Obligations.GrowthPastMaxCapacityFaults := by
  intro s data newCap m hs hn hfull hgrowth hm hlt
  obtain rfl := (isGrowthFor_iff _ _).1 hgrowth
  have hmax : s.cfg.exceedsMax (grownCapacity (s.rb.length + data.length)) = true := by
    simpa [Config.exceedsMax, hm] using hlt
  have hr := makeRoom_of_exceeds hn hfull hmax
  refine ⟨exec_rbEnq_of_exceeded hs hn hr, fun hi hc => ?_⟩
  rw [exec_rxFeed_plain hs hi hc, storePayload, hr, ← hi]
  rfl

/-- Settles O23: an unbounded ring never finds growth past MAX_CAPACITY. -/
theorem unboundedEnqueueAlwaysSucceeds : Obligations.UnboundedEnqueueAlwaysSucceeds := by
  intro s data xs hs hinv hx hunbounded
  rcases exec_rbEnq_cases hs hinv hx data with ⟨hmax, _⟩ | ⟨q, he, _, hlive⟩
  · simp [Config.exceedsMax, hunbounded] at hmax
  · exact ⟨_, he, hlive, rfl⟩

/-- Settles O25: by `consume_eq`, which says R74 and R79 in one form. -/
theorem rbDeqTakesTheOldestBytes : Obligations.RbDeqTakesTheOldestBytes := by
  rintro s n xs _ hs hinv hx rfl
  refine ⟨_, exec_rbDeq hs hx n, ?_, contents_consume hx (dequeueCount_le_length n s.rb)⟩
  rw [consume_eq hinv]
  rfl

/-- Settles O26: up to the end of storage the live bytes do not wrap. -/
theorem rbPeekReadsAContiguousSegment : Obligations.RbPeekReadsAContiguousSegment := by
  rintro s n xs _ hs hinv hx rfl
  refine ⟨exec_rbPeek hs hx n, fun k hk => ?_⟩
  have hlen := contents_length hx
  have hlt : k < xs.length := by omega
  rw [List.getElem?_eq_getElem hlt, ← read_liveAddress hinv hx hlt, liveAddress_of_lt (by omega)]

/-- Settles O27: below the length, and at or past it. -/
theorem rbIdxReadsOneLiveByte : Obligations.RbIdxReadsOneLiveByte := by
  refine fun s n hs => ⟨fun xs b _ hx hb => ?_, exec_rbIdx_of_le hs⟩
  obtain ⟨hn, rfl⟩ := List.getElem?_eq_some_iff.1 hb
  exact exec_rbIdx_of_lt hs hx hn

/-- Settles O31: a response means that the read was not held, and then its bytes are the first of the live ones. -/
theorem readsStayInsideTheLiveBytes : Obligations.ReadsStayInsideTheLiveBytes := by
  intro s t r xs n hinv hx hresp
  have hr := newResponse_of_append hresp
  have hlen := contents_length hx
  have hruns : ∀ {i}, lockedOp i = true → ownerOnly i = false → exec i s = .next t → lockAllows s := fun hl hi he =>
    lockAllows_of_exec_ne hl hi he (ne_of_newResponse hr)
  constructor
  · intro hread
    have hprefix : r.dataOut <+: xs := by
      rcases hread with he | he
      · cases he.symm.trans (exec_rbDeq (hruns rfl rfl he) hx n)
        rw [newResponse_finish (setRing_responses _ s)] at hr
        cases hr
        exact List.take_prefix _ xs
      · cases he.symm.trans (exec_rbPeek (hruns rfl rfl he) hx n)
        rw [newResponse_finish rfl] at hr
        cases hr
        exact List.take_prefix _ xs
    exact ⟨hlen ▸ hprefix.length_le, hprefix⟩
  · intro he
    have hs := hruns rfl rfl he
    refine ⟨fun hn => ?_, fun hn => ?_⟩
    · cases he.symm.trans (exec_rbIdx_of_le hs hn)
      rw [newResponse_takePrecise] at hr
      cases hr
      rfl
    · have hlt : n.toNat < xs.length := hlen ▸ hn
      cases he.symm.trans (exec_rbIdx_of_lt hs hx hlt)
      rw [newResponse_finish rfl] at hr
      cases hr
      exact ⟨_, List.getElem?_eq_getElem hlt, rfl⟩

/-- Settles O19: an empty DATA_IN is answered before room is asked for. -/
theorem rbEnqOfNothingIsANoOp : Obligations.RbEnqOfNothingIsANoOp := fun _ hs => exec_rbEnq_nil hs

/-- Settles O24: the command is `clearRing`. -/
theorem rbClrEmptiesTheRing : Obligations.RbClrEmptiesTheRing := fun _ hs => exec_rbClr hs

/-- Settles O28: the length is answered and nothing written. -/
theorem rbLenAnswersTheLength : Obligations.RbLenAnswersTheLength := fun _ hs => exec_rbLen hs

/-- Settles O29: the lock is free, the issuer's, or the other agent's. -/
theorem rbLockAcquiresAFreeLock : Obligations.RbLockAcquiresAFreeLock := fun _ =>
  ⟨exec_rbLock_of_free, exec_rbLock_of_own, fun _ hb ho =>
    exec_of_other_owner rfl (permitted_of_not_ownerOnly rfl _) ho hb⟩

/-- Settles O30: the lock is the issuer's or not. -/
theorem rbUnlockReleasesTheOwnersLock : Obligations.RbUnlockReleasesTheOwnersLock := fun _ =>
  ⟨exec_rbUnlock_of_own, exec_rbUnlock_of_not_own⟩

end Sys2Proof.Proofs
end

section
/-! SUPPORT. HD_DEC's outcomes (R101), said once, and what R98, R104 and R105 need of the decoder beyond the plain
walk: the byte it holds, chunks in a row, and chunks that differ in padding. -/

namespace Sys2Proof.Machine

open Sys2Proof.Safety

/-! ### Tree entries (R87, R88) -/

@[simp] theorem classify_sentinel : classify (-256) = .sentinel := rfl

theorem classify_of_leaf {v : Int} (hlo : -255 ≤ v) (hhi : v ≤ 0) : classify v = .leaf (BitVec.ofInt 8 (-v)) := by
  have hne : ¬ v = Sys2Proof.sentinel := by simp only [Sys2Proof.sentinel]; omega
  rw [classify, if_neg hne, if_pos hhi]

theorem classify_of_child {v : Int} (hlo : 1 ≤ v) : classify v = .child (Fin.ofNat treeNodes v.toNat) := by
  have hne : ¬ v = Sys2Proof.sentinel := by simp only [Sys2Proof.sentinel]; omega
  rw [classify, if_neg hne, if_neg (by omega)]

/-! ### The byte the decoder holds (R98, R99) -/

theorem bitStep_keeps_currentByte {t : Tree} {cap : Nat} {d d' : Decoder} {out out' : List Byte}
    (h : bitStep t cap d out = some (d', out')) : d'.currentByte = d.currentByte := by
  rcases bitStep_some_cases h with rfl | ⟨_, rfl⟩ <;> rfl

theorem drainByte_keeps_currentByte {t : Tree} {cap fuel : Nat} {d d' : Decoder} {out out' : List Byte}
    (h : drainByte t cap fuel d out = .consumed d' out') : d'.currentByte = d.currentByte := by
  induction fuel generalizing d out with
  | zero => cases h; rfl
  | succ fuel ih =>
    rw [drainByte] at h
    split at h
    · cases h; rfl
    · split at h
      · cases h
      · exact (ih h).trans (bitStep_keeps_currentByte ‹_›)

/-- A chunk that is consumed leaves its last byte in the decoder, and the old byte where it has none (R98). -/
theorem decodeLoop_currentByte {t : Tree} {cap : Nat} {input : List Byte} {d d' : Decoder} {out out' : List Byte}
    (h : decodeLoop t cap input d out = .consumed d' out') : d'.currentByte = input.getLastD d.currentByte := by
  induction input generalizing d out with
  | nil => exact drainByte_keeps_currentByte h
  | cons b rest ih =>
    rw [decodeLoop] at h
    split at h
    · cases h
    · rw [List.getLastD_cons]
      exact ih h

/-! ### `Decompress` in terms of its loop (R100) -/

section
variable {t : Tree} {input : List Byte} {cap : Nat} {d d' : Decoder} {out : List Byte}

theorem decompress_of_consumed (hr : d.dstate = .ready) (h : decodeLoop t cap input d [] = .consumed d' out) :
    decompress t input cap d = .done d' out := by simp [decompress, hr, h]

theorem decompress_of_overflow (hr : d.dstate = .ready) (h : decodeLoop t cap input d [] = .overflow out) :
    decompress t input cap d = .overflow out := by simp [decompress, hr, h]

theorem decodeLoop_of_done (h : decompress t input cap d = .done d' out) :
    decodeLoop t cap input d [] = .consumed d' out := by
  unfold decompress at h
  split at h
  · cases h
  · split at h <;> cases h
    assumption

/-- A call that does not fault leaves the chunk's last byte in the decoder. -/
theorem decompress_done_currentByte (h : decompress t input cap d = .done d' out) {b : Byte}
    (hb : input.getLast? = some b) : d'.currentByte = b := by
  rw [decodeLoop_currentByte (decodeLoop_of_done h), List.getLastD_eq_getLast?, hb, Option.getD_some]

/-- At a byte boundary an empty chunk is consumed at once (R102). -/
theorem decompress_nil (hr : d.dstate = .ready) (h8 : d.bitPosition = 8) : decompress t [] cap d = .done d [] :=
  decompress_of_consumed hr (drainByte_boundary _ _ _ _ _ h8)

end

/-- Two calls that do not fault are one call on the concatenation, where both outputs fit (R104). -/
theorem decompress_append {t : Tree} {x y : List Byte} {c₁ c₂ c : Nat} {d d₁ d₂ : Decoder} {o₁ o₂ : List Byte}
    (h₁ : decompress t x c₁ d = .done d₁ o₁) (h₂ : decompress t y c₂ d₁ = .done d₂ o₂)
    (hle : o₁.length + o₂.length ≤ c) : decompress t (x ++ y) c d = .done d₂ (o₁ ++ o₂) := by
  obtain ⟨_, _, hready⟩ := decompress_done h₁
  obtain ⟨_, rfl, hx⟩ := decodeLoop_shift _ _ _ _ _ _ _ (decodeLoop_of_done h₁)
  obtain ⟨_, rfl, hy⟩ := decodeLoop_shift _ _ _ _ _ _ _ (decodeLoop_of_done h₂)
  have hfirst := hx c [] (by simp only [List.length_nil]; omega)
  exact decompress_of_consumed hready ((decodeLoop_append y hfirst).trans (hy c _ hle))

/-! ### Padding (R91, R105) -/

/-- Two outcomes of a decoder loop that differ at most in the byte the decoder holds. -/
inductive Decoding.EqButByte : Decoding → Decoding → Prop where
  | consumed (d : Decoder) (out : List Byte) (b : Byte) :
      EqButByte (.consumed d out) (.consumed { d with currentByte := b } out)
  | overflow (out : List Byte) : EqButByte (.overflow out) (.overflow out)

theorem Decoding.EqButByte.refl (r : Decoding) : r.EqButByte r := by
  cases r with
  | consumed d out => exact .consumed d out d.currentByte
  | overflow out => exact .overflow out

/-- A chunk that overflows does so whatever follows it. -/
theorem decodeLoop_append_of_overflow {t : Tree} {cap : Nat} {x : List Byte} (y : List Byte) {d : Decoder}
    {out o : List Byte} (h : decodeLoop t cap x d out = .overflow o) :
    decodeLoop t cap (x ++ y) d out = .overflow o := by
  induction x generalizing d out with
  | nil =>
    have hdrain : drainByte t cap 8 d out = .overflow o := h
    cases y <;> simp [decodeLoop, hdrain]
  | cons b rest ih =>
    rw [decodeLoop] at h
    rw [List.cons_append, decodeLoop]
    split at h
    · exact h
    · exact ih h

/-- At a byte boundary the held byte has no effect on what is decoded next: a fetch overwrites it. -/
theorem decodeLoop_of_other_byte (t : Tree) (cap : Nat) (input : List Byte) {d : Decoder} (h8 : d.bitPosition = 8)
    (b : Byte) (out : List Byte) :
    (decodeLoop t cap input d out).EqButByte (decodeLoop t cap input { d with currentByte := b } out) := by
  cases input with
  | nil =>
    rw [decodeLoop, decodeLoop, drainByte_boundary _ _ _ d _ h8, drainByte_boundary _ _ _ { d with currentByte := b } _ h8]
    exact .consumed d out b
  | cons c rest =>
    rw [decodeLoop, decodeLoop, drainByte_boundary _ _ _ d _ h8, drainByte_boundary _ _ _ { d with currentByte := b } _ h8]
    exact .refl _

/-- A fetched byte is used up before the rest of the chunk is read: its symbols fit, or the call overflows (R93, R98). -/
theorem decodeLoop_fetched (t : Tree) (cap : Nat) (b : Byte) (y : List Byte) (d : Decoder) {out : List Byte}
    (ho : out.length ≤ cap) :
    decodeLoop t cap y (fetchByte b d) out =
      if out.length + (walkBits t d.treeNode (bitsOf b)).2.length ≤ cap then
        decodeLoop t cap y (spentByte (fetchByte b d) (walkBits t d.treeNode (bitsOf b)).1
          (bitsRead t d.treeNode (bitsOf b))) (out ++ (walkBits t d.treeNode (bitsOf b)).2)
      else .overflow (out ++ (walkBits t d.treeNode (bitsOf b)).2.take (cap - out.length)) := by
  have hdrain := drainByte_fetched t cap b d out ho
  split
  · rename_i hle
    rw [if_pos hle] at hdrain
    cases y <;> simp only [decodeLoop, hdrain, drainByte_boundary _ _ _ (spentByte _ _ _) _ rfl]
  · rename_i hlt
    rw [if_neg hlt] at hdrain
    cases y <;> simp only [decodeLoop, hdrain]

/-- Where the bits read before a sentinel agree, the first byte of a chunk may differ in the rest. -/
theorem decodeLoop_cons_padding {t : Tree} {cap : Nat} {b b' : Byte} {d : Decoder} {out : List Byte}
    (h8 : d.bitPosition = 8) (ho : out.length ≤ cap)
    (hbits : (bitsOf b).take (bitsRead t d.treeNode (bitsOf b)) = (bitsOf b').take (bitsRead t d.treeNode (bitsOf b)))
    (y : List Byte) : (decodeLoop t cap (b :: y) d out).EqButByte (decodeLoop t cap (b' :: y) d out) := by
  obtain ⟨hwalk, hread⟩ := walkBits_read t d.treeNode (bitsOf b) (bitsOf b') rfl hbits
  simp only [decodeLoop, drainByte_boundary _ _ _ d _ h8, decodeLoop_fetched _ _ _ _ _ ho, ← hwalk, ← hread]
  split
  · exact decodeLoop_of_other_byte t cap y rfl b' _
  · exact .refl _

/-- The same behind any chunk. -/
theorem decodeLoop_padding {t : Tree} {cap : Nat} {x : List Byte} {b b' : Byte} {d : Decoder}
    (h8 : d.bitPosition = 8)
    (hbits : (bitsOf b).take (bitsRead t (walkBytes t d.treeNode x).1 (bitsOf b)) =
      (bitsOf b').take (bitsRead t (walkBytes t d.treeNode x).1 (bitsOf b)))
    (y : List Byte) : (decodeLoop t cap (x ++ b :: y) d []).EqButByte (decodeLoop t cap (x ++ b' :: y) d []) := by
  rcases decodeLoop_walk t cap x d [] h8 (Nat.zero_le _) with ⟨hle, d', hx, h8', hnode, _⟩ | ⟨_, hx⟩
  · rw [decodeLoop_append _ hx, decodeLoop_append _ hx]
    exact decodeLoop_cons_padding h8' (by simpa using hle) (hnode ▸ hbits) y
  · rw [decodeLoop_append_of_overflow _ hx, decodeLoop_append_of_overflow _ hx]
    exact .refl _

/-! ### What HD_DEC answers (R101, R133) -/

section
variable {s : State} (hi : s.issuer = .A0)
include hi

/-- A0 may issue HD_DEC, and no lock holds it (R49, R138). -/
theorem guarded_hdDec (cap : Arg) (chunk : List Byte) (rule : State → Result) :
    guarded (.hdDec cap chunk) rule s = rule s := guarded_runs (hi ▸ permitted_A0 _) (held_of_unlockedOp rfl _ _)

variable {cap : Arg} {chunk : List Byte}

theorem exec_hdDec_of_faulted (h : decompress s.cfg.tree chunk cap.toNat s.dec = .faulted) :
    exec (.hdDec cap chunk) s = .next (takePrecise 0x09 .decoderFaulted .nothing s) := by
  rw [exec, execHdDec, guarded_hdDec hi, argNat, h]
  rfl

theorem exec_hdDec_of_overflow {out : List Byte} (h : decompress s.cfg.tree chunk cap.toNat s.dec = .overflow out) :
    exec (.hdDec cap chunk) s = .next (takeFault 0x09 .decompressOverflow (.capAndProduced cap.toNat out.length)
      out.length out (overflowDecoder s)) := by
  rw [exec, execHdDec, guarded_hdDec hi, argNat, h]
  rfl

theorem exec_hdDec_of_done {d : Decoder} {out : List Byte}
    (h : decompress s.cfg.tree chunk cap.toNat s.dec = .done d out) :
    exec (.hdDec cap chunk) s = .next (finish out.length out true (setDecoder d s)) := by
  rw [exec, execHdDec, guarded_hdDec hi, argNat, h]
  rfl

end

/-- RX_FEED with compression on, while D is FAULTED (R106, R121). -/
theorem exec_rxFeed_of_faulted {s : State} (hs : lockAllows s) (hi : s.issuer = .A0) (hc : s.compressEn = true)
    (hd : s.dec.dstate = .faulted) (chunk : List Byte) :
    exec (.rxFeed chunk) s = .next (takePrecise 0x0B .decoderFaulted .nothing s) := by
  rw [exec, execRxFeed, guarded_runs (hi ▸ permitted_A0 _) (held_of_lockAllows hs _), if_pos hc,
    decompress_faulted _ _ _ _ hd]
  rfl

/-- No fault answers with status OK (R126, R127). -/
theorem faultByte_ne_ok (code : FaultCode) : faultByte code ≠ 0x00 := by cases code <;> decide

theorem status_ne_ok_of_takeFault {s u : State} {r : Response} (hu : u.responses = s.responses) {cmd : Byte}
    {code : FaultCode} {info : FaultInfo} {value : Nat} {out : List Byte}
    (hr : (takeFault cmd code info value out u).responses = s.responses ++ [r]) : r.status ≠ 0x00 := by
  rw [takeFault_responses, hu] at hr
  cases List.append_cancel_left hr
  exact faultByte_ne_ok code

/-- An HD_DEC answered with OK was A0's, and `Decompress` consumed its chunk (R101). -/
theorem decompress_of_hdDec_ok {s t : State} {cap : Arg} {chunk : List Byte} {r : Response}
    (h : exec (.hdDec cap chunk) s = .next t) (hr : t.responses = s.responses ++ [r]) (hok : r.status = 0x00) :
    s.issuer = .A0 ∧ ∃ d, decompress s.cfg.tree chunk cap.toNat s.dec = .done d r.dataOut ∧
      t = finish r.dataOut.length r.dataOut true (setDecoder d s) := by
  cases hi : s.issuer with
  | A1 =>
    rw [exec_denied (by rw [hi]; rfl)] at h
    cases h
    exact absurd hok (status_ne_ok_of_takeFault rfl hr)
  | A0 =>
    refine ⟨rfl, ?_⟩
    cases hd : decompress s.cfg.tree chunk cap.toNat s.dec with
    | faulted =>
      cases h.symm.trans (exec_hdDec_of_faulted hi hd)
      exact absurd hok (status_ne_ok_of_takeFault rfl hr)
    | overflow out =>
      cases h.symm.trans (exec_hdDec_of_overflow hi hd)
      exact absurd hok (status_ne_ok_of_takeFault rfl hr)
    | done d out =>
      cases h.symm.trans (exec_hdDec_of_done hi hd)
      cases List.append_cancel_left hr
      exact ⟨d, rfl, rfl⟩

end Sys2Proof.Machine
end

section
/-! The statements of 41_decompressor.md. -/

namespace Sys2Proof.Proofs

open Sys2Proof.Machine Sys2Proof.Safety

/-- Settles O35: `decompress_spec` is the walk; the byte held is the last one fetched. -/
theorem hdDecAnswersTheWalkOverTheBits : Obligations.HdDecAnswersTheWalkOverTheBits := by
  intro s cap chunk hi hready h8
  rcases decompress_spec s.cfg.tree chunk cap.toNat s.dec (fun _ => h8) with
    ⟨hfaulted, _⟩ | ⟨_, hle, d, hd, hd8, hnode, hdr⟩ | ⟨_, hlt, hd⟩
  · cases hready.symm.trans hfaulted
  · refine ⟨fun _ => ⟨d, ?_, hnode, hd8, hdr, fun b => decompress_done_currentByte hd⟩, fun hlt => absurd hle (by omega)⟩
    rw [exec_hdDec_of_done hi hd, ← hi]
    rfl
  · refine ⟨fun hle => absurd hle (by omega), fun _ => ⟨(overflowDecoder s).dec, ?_, rfl⟩⟩
    rw [exec_hdDec_of_overflow hi hd, List.length_take_of_le (by omega), ← hi]
    rfl

/-- Settles O39: each call answered with OK is a `Decompress` that consumed its chunk, and two of those join. -/
theorem splitInvariance : Obligations.SplitInvariance := by
  intro s s1 s2 x y c1 c2 c r1 r2 he1 hr1 hok1 he2 hr2 hok2 hle
  obtain ⟨hi, d1, hd1, rfl⟩ := decompress_of_hdDec_ok he1 hr1 hok1
  obtain ⟨_, d2, hd2, rfl⟩ := decompress_of_hdDec_ok he2 hr2 hok2
  rw [exec_hdDec_of_done hi (decompress_append hd1 hd2 hle), List.length_append]
  rfl

/-- Settles O36: both decodes are answered before D is touched, and dstate turns READY only as O56 says. -/
theorem faultedDecoderStaysFaulted : Obligations.FaultedDecoderStaysFaulted := by
  refine fun s hd => ⟨fun hi cap chunk => ?_, fun hi hs hc chunk => ?_, fun i t he ht => ?_⟩
  · rw [exec_hdDec_of_faulted hi (decompress_faulted _ _ _ _ hd), ← hi]
    rfl
  · rw [exec_rxFeed_of_faulted hs hi hc hd, ← hi]
    rfl
  · obtain ⟨_, hdstate, _, _⟩ := controlStateIsWrittenOnlyByItsCommands i s t he
    rcases hdstate (by simp [hd, ht]) with ⟨_, hreset⟩ | ⟨hfaulted, _⟩
    · exact hreset
    · cases ht.symm.trans hfaulted

/-- Settles O38: only `Decompress` that consumed its chunk answers OK. -/
theorem callsEndAtAByteBoundary : Obligations.CallsEndAtAByteBoundary := by
  intro s t cap chunk r he hr hok
  obtain ⟨_, d, hd, rfl⟩ := decompress_of_hdDec_ok he hr hok
  obtain ⟨h8, hready, _⟩ := decompress_done hd
  exact ⟨h8, hready⟩

/-- Settles O40: a denied or FAULTED call does not read the chunk, and a decoding one is `decodeLoop_padding`. -/
theorem paddingAfterASentinelHasNoEffect : Obligations.PaddingAfterASentinelHasNoEffect := by
  rintro s t u cap x y b b' _ hboundary rfl hbits ht hu
  cases hi : s.issuer with
  | A1 =>
    have hdenied : ∀ chunk, permitted s.issuer (.hdDec cap chunk) = false := by rw [hi]; exact fun _ => rfl
    cases ht.symm.trans (exec_denied (hdenied _))
    cases hu.symm.trans (exec_denied (hdenied _))
    rfl
  | A0 =>
    cases hd : s.dec.dstate with
    | faulted =>
      cases ht.symm.trans (exec_hdDec_of_faulted hi (decompress_faulted _ _ _ _ hd))
      cases hu.symm.trans (exec_hdDec_of_faulted hi (decompress_faulted _ _ _ _ hd))
      rfl
    | ready =>
      have hsame := decodeLoop_padding (cap := cap.toNat) (hboundary hd) hbits y
      generalize hb : decodeLoop _ _ (x ++ b :: y) _ _ = r at hsame
      generalize hb' : decodeLoop _ _ (x ++ b' :: y) _ _ = r' at hsame
      cases hsame with
      | consumed d out c =>
        cases ht.symm.trans (exec_hdDec_of_done hi (decompress_of_consumed hd hb))
        cases hu.symm.trans (exec_hdDec_of_done hi (decompress_of_consumed hd hb'))
        rfl
      | overflow out =>
        cases ht.symm.trans (exec_hdDec_of_overflow hi (decompress_of_overflow hd hb))
        cases hu.symm.trans (exec_hdDec_of_overflow hi (decompress_of_overflow hd hb'))
        rfl

/-- Settles O33: the sentinel's test comes first, and 8 bits hold the byte of a leaf and the index of a child. -/
theorem classifyTestsTheSentinelFirst : Obligations.ClassifyTestsTheSentinelFirst := by
  refine fun v _ hv => ⟨fun h => h ▸ classify_sentinel, fun hlo hhi => ⟨_, classify_of_leaf hlo hhi, ?_⟩,
    fun hlo => ⟨_, classify_of_child hlo, ?_⟩⟩
  · rw [BitVec.toNat_ofInt]
    omega
  · rw [Fin.val_ofNat, treeNodes]
    omega

/-- Settles O37: the loop finds neither a bit nor a byte to read. -/
theorem emptyChunkChangesNothing : Obligations.EmptyChunkChangesNothing := by
  intro s cap hi hready h8
  rw [exec_hdDec_of_done hi (decompress_nil hready h8), ← hi]
  rfl

end Sys2Proof.Proofs
end

section
/-! SUPPORT. The receive path (R118 to R124): what RX_CMPEN, RX_FEED and CONN_RST answer A0, said once, and the ways
an RX_FEED can end. -/

namespace Sys2Proof.Machine

open Sys2Proof.Safety

/-- A0 may issue every command, so its own rule runs where the lock allows A0 (R49, R138). -/
theorem guarded_of_issuer_A0 {s : State} (hs : lockAllows s) (hi : s.issuer = .A0) (i : Instr) (rule : State → Result) :
    guarded i rule s = rule s := guarded_runs (hi ▸ permitted_A0 _) (held_of_lockAllows hs _)

/-! ### Room for a payload (R70, R71) -/

/-- Where n more bytes fit, making room is not refused. -/
theorem makeRoom_of_hasRoom {s : State} {n : Nat} (h : RingInv s.cfg s.rb) (hroom : hasRoom s n) :
    ∃ r, makeRoom s.cfg s.rb n = .room r := by
  obtain ⟨xs, hx⟩ := contents_of_inv h
  rcases hroom with hfit | hgrow
  · exact ⟨_, makeRoom_of_fits _ hfit⟩
  · have hmax : s.cfg.exceedsMax (grownCapacity (s.rb.length + n)) = false := by
      refine (exceedsMax_eq_false_iff _ _).2 fun m hm => ?_
      obtain ⟨q, hneed, hle⟩ := hgrow m hm
      exact (grownCapacity_least _ _ (Nat.dvd_mul_left _ q) hneed).trans hle
    rcases makeRoom_spec h hx n with ⟨_, hexceeds, _⟩ | ⟨r, hr, _⟩
    · cases hexceeds.symm.trans hmax
    · exact ⟨r, hr⟩

/-- Where the size R70 asks for passes MAX_CAPACITY, there is no room (R71). -/
theorem makeRoom_of_growth_past_max {c : Config} {rb : Ring} {n newCap m : Nat} (hn : 0 < n)
    (hfull : rb.capacity < rb.length + n) (hgrowth : isGrowthFor (rb.length + n) newCap)
    (hm : c.maxCapacity = some m) (hlt : m < newCap) : makeRoom c rb n = .exceeded newCap := by
  obtain rfl := (isGrowthFor_iff _ _).1 hgrowth
  exact makeRoom_of_exceeds hn hfull (by simpa [Config.exceedsMax, hm] using hlt)

/-! ### The second half of RX_FEED (R121, R124) -/

theorem storePayload_of_exceeded {s : State} {payload : List Byte} {newCap : Nat}
    (hr : makeRoom s.cfg s.rb payload.length = .exceeded newCap) (chunk : List Byte) (d : Decoder) (more : Bool) :
    storePayload chunk payload d more s = .next (takePrecise 0x0B .capacityExceeded (.neededCapacity newCap) s) := by
  rw [storePayload, hr]
  rfl

/-- With room, the payload joins the live bytes and the decoder's advance stands. -/
theorem storePayload_of_hasRoom {s : State} {xs payload : List Byte} (h : RingInv s.cfg s.rb)
    (hx : contents s.rb = .ok xs) (hroom : hasRoom s payload.length) (chunk : List Byte) (d : Decoder) (more : Bool) :
    ∃ q, storePayload chunk payload d more s =
        .next (finish payload.length [] more (setDecoder d (setRing q s))) ∧
      contents q = .ok (xs ++ payload) ∧ StoredBehind s.rb q payload.length := by
  obtain ⟨r, hr⟩ := makeRoom_of_hasRoom h hroom
  exact ⟨append r payload, by rw [storePayload, hr], contents_append_room h hx hr, storedBehind_of_room h hr⟩

/-! ### `Decompress` against the plain walk, from a byte boundary (R93, R95) -/

section
variable {t : Tree} {input : List Byte} {cap : Nat} {d : Decoder}

theorem decompress_of_walk_le (hready : d.dstate = .ready) (h8 : d.bitPosition = 8)
    (hle : (walkBytes t d.treeNode input).2.length ≤ cap) :
    ∃ d', decompress t input cap d = .done d' (walkBytes t d.treeNode input).2 ∧
      d'.treeNode = (walkBytes t d.treeNode input).1 ∧ d'.bitPosition = 8 ∧ d'.dstate = .ready := by
  rcases decompress_spec t input cap d (fun _ => h8) with
    ⟨hfaulted, _⟩ | ⟨_, _, d', hd, hd8, hnode, hdr⟩ | ⟨_, hlt, _⟩
  · cases hready.symm.trans hfaulted
  · exact ⟨d', hd, hnode, hd8, hdr⟩
  · exact absurd hle (Nat.not_le.2 hlt)

theorem decompress_of_walk_gt (hready : d.dstate = .ready) (h8 : d.bitPosition = 8)
    (hlt : cap < (walkBytes t d.treeNode input).2.length) :
    decompress t input cap d = .overflow ((walkBytes t d.treeNode input).2.take cap) := by
  rcases decompress_spec t input cap d (fun _ => h8) with ⟨hfaulted, _⟩ | ⟨_, hle, _⟩ | ⟨_, _, hd⟩
  · cases hready.symm.trans hfaulted
  · exact absurd hle (Nat.not_le.2 hlt)
  · exact hd

/-- A call that does not fault is the walk. -/
theorem walk_of_decompress_done {d' : Decoder} {out : List Byte} (hb : BoundaryInv d)
    (h : decompress t input cap d = .done d' out) :
    out = (walkBytes t d.treeNode input).2 ∧ d'.treeNode = (walkBytes t d.treeNode input).1 := by
  rcases decompress_spec t input cap d hb with ⟨_, hd⟩ | ⟨_, _, _, hd, _, hnode, _⟩ | ⟨_, _, hd⟩ <;>
    cases h.symm.trans hd
  exact ⟨rfl, hnode⟩

end

/-! ### What RX_FEED answers with compression on (R121, R133) -/

section
variable {s : State} (hs : lockAllows s) (hi : s.issuer = .A0) (hc : s.compressEn = true) {chunk out : List Byte}
include hs hi hc

theorem exec_rxFeed_of_overflow (hd : decompress s.cfg.tree chunk s.cfg.stageCap s.dec = .overflow out) :
    exec (.rxFeed chunk) s = .next (takeFault 0x0B .decompressOverflow
      (.capAndProduced s.cfg.stageCap out.length) 0 [] (overflowDecoder s)) := by
  rw [exec, execRxFeed, guarded_of_issuer_A0 hs hi, if_pos hc, hd]
  rfl

theorem exec_rxFeed_of_done {d : Decoder} (hd : decompress s.cfg.tree chunk s.cfg.stageCap s.dec = .done d out) :
    exec (.rxFeed chunk) s = storePayload chunk out d true s := by
  rw [exec, execRxFeed, guarded_of_issuer_A0 hs hi, if_pos hc, hd]
  rfl

end

/-! ### The ways an RX_FEED ends (R124) -/

/-- Held, with a precise fault, with an overflow, or with both the payload stored and the decoder's advance. -/
inductive FeedEnds (chunk : List Byte) (s : State) : State → Prop where
  | held : FeedEnds chunk s s
  | precise {code : FaultCode} (info : FaultInfo) (hcode : code ≠ .decompressOverflow) :
      FeedEnds chunk s (takePrecise 0x0B code info s)
  | overflow (info : FaultInfo) :
      FeedEnds chunk s (takeFault 0x0B .decompressOverflow info 0 [] (overflowDecoder s))
  | stored {payload : List Byte} {d : Decoder} {r : Ring} (received : ReceivedAs s chunk payload d)
      (room : makeRoom s.cfg s.rb payload.length = .room r) (more : Bool) :
      FeedEnds chunk s (finish payload.length [] more (setDecoder d (setRing (append r payload) s)))

theorem storePayload_feedEnds {chunk payload : List Byte} {d : Decoder} {more : Bool} {s t : State}
    (hrec : ReceivedAs s chunk payload d) (h : storePayload chunk payload d more s = .next t) : FeedEnds chunk s t := by
  unfold storePayload at h
  split at h <;> cases h
  · exact .precise _ FaultCode.noConfusion
  · exact .stored hrec ‹_› _

theorem exec_feedEnds {chunk : List Byte} {s t : State} (h : exec (.rxFeed chunk) s = .next t) : FeedEnds chunk s t := by
  rw [exec, execRxFeed] at h
  rcases guarded_cases (.rxFeed chunk) _ s with ⟨_, e⟩ | ⟨_, _, e⟩ | ⟨_, _, e⟩ <;> rw [e] at h
  · cases h; exact .precise _ FaultCode.noConfusion
  · cases h; exact .held
  · split at h
    · split at h
      · cases h; exact .precise _ FaultCode.noConfusion
      · cases h; exact .overflow _
      · exact storePayload_feedEnds (.decoded ‹_› ‹_›) h
    · exact storePayload_feedEnds (.plain (Bool.eq_false_iff.2 ‹_›)) h

/-- Only an overflow answers 0x07 (R127). -/
theorem faultByte_eq_overflow_iff (code : FaultCode) : faultByte code = 0x07 ↔ code = .decompressOverflow := by
  cases code <;> decide

/-! ### What RX_CMPEN and CONN_RST answer (R120, R122) -/

/-- RX_CMPEN is outside `LOCKED_OPS`, so its own rule runs whoever owns the lock. -/
theorem exec_rxCmpen {s : State} (hi : s.issuer = .A0) :
    exec .rxCmpen s = .next (finish 0 [] noMore (setCompress s)) := by
  rw [exec, execRxCmpen, guarded_runs (hi ▸ permitted_A0 _) (held_of_unlockedOp rfl _ _)]

theorem exec_connRst {s : State} (hi : s.issuer = .A0) (hs : lockAllows s) :
    exec .connRst s = .next (finish 0 [] noMore (resetConnection s)) := by
  rw [exec, execConnRst, guarded_of_issuer_A0 hs hi]

end Sys2Proof.Machine
end

section
/-! The statements of 42_receive_path.md. -/

namespace Sys2Proof.Proofs

open Sys2Proof.Machine Sys2Proof.Safety

/-- Settles O42: the payload is the chunk itself. -/
theorem rxFeedRawEnqueuesTheChunk : Obligations.RxFeedRawEnqueuesTheChunk := by
  intro s chunk xs hi hs hinv hx hc hroom
  obtain ⟨q, he, hlive, hstored⟩ := storePayload_of_hasRoom hinv hx hroom chunk s.dec noMore
  refine ⟨_, (exec_rxFeed_plain hs hi hc chunk).trans he, ?_, hlive, hstored⟩
  rw [← hi]
  rfl

/-- Settles O43: the payload is what `Decompress` makes of the chunk, which is the walk's symbols. -/
theorem rxFeedCompressedEnqueuesTheSymbols : Obligations.RxFeedCompressedEnqueuesTheSymbols := by
  intro s chunk xs hi hs hinv hx hc hready h8 hle hroom
  obtain ⟨d, hd, hnode, hd8, hdr⟩ := decompress_of_walk_le hready h8 hle
  obtain ⟨q, he, hlive, hstored⟩ := storePayload_of_hasRoom hinv hx hroom chunk d true
  refine ⟨_, (exec_rxFeed_of_done hs hi hc hd).trans he, ?_, hlive, hstored, hnode, hd8, hdr⟩
  rw [← hi]
  rfl

/-- Settles O44: the walk's symbols are more than STAGE_CAP, so `Decompress` overflows after STAGE_CAP of them. -/
theorem rxFeedOverflowEnqueuesNothing : Obligations.RxFeedOverflowEnqueuesNothing := by
  intro s chunk hi hs hc hready h8 hlt
  refine ⟨(overflowDecoder s).dec, ?_, rfl⟩
  rw [exec_rxFeed_of_overflow hs hi hc (decompress_of_walk_gt hready h8 hlt),
    List.length_take_of_le (Nat.le_of_lt hlt), ← hi]
  rfl

/-- Settles O45: room is asked for before the decoder's advance is written, and there is none. -/
theorem rxFeedThatCannotGrowRestoresTheDecoder : Obligations.RxFeedThatCannotGrowRestoresTheDecoder := by
  rintro s chunk _ newCap m hi hs hc hready h8 rfl hle hn hfull hgrowth hm hlt
  obtain ⟨d, hd, _⟩ := decompress_of_walk_le hready h8 hle
  have hr := makeRoom_of_growth_past_max hn hfull hgrowth hm hlt
  rw [exec_rxFeed_of_done hs hi hc hd, storePayload_of_exceeded hr, ← hi]
  rfl

/-- Settles O46: the status tells the ways an RX_FEED ends apart. -/
theorem rxFeedIsAllOrNothing : Obligations.RxFeedIsAllOrNothing := by
  intro s t chunk r he hr
  cases exec_feedEnds he with
  | held => simp at hr
  | precise info hcode =>
    rw [takePrecise_responses] at hr
    cases List.append_cancel_left hr
    exact ⟨fun _ => ⟨rfl, rfl, rfl⟩, fun h => absurd ((faultByte_eq_overflow_iff _).1 h) hcode,
      fun h => absurd h (faultByte_ne_ok _)⟩
  | overflow info =>
    rw [takeFault_responses] at hr
    cases List.append_cancel_left hr
    exact ⟨fun h => absurd h (by simp [faultByte]), fun _ => ⟨rfl, rfl⟩, fun h => absurd h (by simp [faultByte])⟩
  | stored received room more =>
    rw [finish_responses] at hr
    cases List.append_cancel_left hr
    refine ⟨fun h => absurd h (by simp), fun h => absurd h (by simp), fun _ xs hinv hboundary hx => ?_⟩
    have hlive := contents_append_room hinv hx room
    cases received with
    | plain off => exact ⟨fun _ => ⟨hlive, rfl⟩, fun on => Bool.noConfusion (on.symm.trans off)⟩
    | decoded on done =>
      obtain ⟨rfl, hnode⟩ := walk_of_decompress_done hboundary done
      exact ⟨fun off => Bool.noConfusion (on.symm.trans off), fun _ => ⟨hlive, hnode⟩⟩

/-- Settles O41: the command is `setCompress`. -/
theorem rxCmpenEnablesCompression : Obligations.RxCmpenEnablesCompression := by
  intro s hi
  rw [exec_rxCmpen hi, ← hi]
  rfl

/-- Settles O47: the command is `resetConnection`. -/
theorem connRstResetsTheConnection : Obligations.ConnRstResetsTheConnection := by
  refine fun s hi hs => ⟨Config.freeCurrentByte s.draws, Config.freeBitMask s.draws, ?_⟩
  rw [exec_connRst hi hs, ← hi]
  rfl

/-- Settles O48: the second CONN_RST, as little held as the first, is `resetConnection` again. -/
theorem connRstIsIdempotent : Obligations.ConnRstIsIdempotent := by
  intro s t u hi hs ht hu
  cases ht.symm.trans (exec_connRst hi hs)
  cases hu.symm.trans (exec_connRst (s := finish 0 [] noMore (resetConnection s)) hi hs)
  exact ⟨rfl, rfl, rfl, rfl, rfl, rfl, rfl, rfl, rfl, rfl, rfl, rfl⟩

end Sys2Proof.Proofs
end

section
/-! SUPPORT. How serving a request can end, illegal bytes included (R128 to R134), that serving a request the port can carry
ends at all, and the commands the permission table denies A1 (R138). -/

namespace Sys2Proof.Machine

open Sys2Proof.Safety

/-! ### How a request ends (R126, R131 to R134) -/

/-- The ways a request ends, legal or not: held, with OK, with a precise fault (R132), or with an overflow (R133). A
fault is recorded with the request's own command byte. -/
inductive RequestEnds (c : Command) (s : State) : State → Prop where
  | held (hheld : requestHeld s.issuer c s.lockOwner = true) : RequestEnds c s s
  | ok {u : State} (written : UnitsWritten s u) (value : Nat) (out : List Byte) (more : Bool) :
      RequestEnds c s (finish value out more u)
  | precise (code : FaultCode) (info : FaultInfo) : RequestEnds c s (takePrecise c.cmd code info s)
  | overflow (info : FaultInfo) (value : Nat) (out : List Byte) :
      RequestEnds c s (takeFault c.cmd .decompressOverflow info value out (overflowDecoder s))

/-- A command that completes ends the request it was decoded from. -/
theorem Completes.requestEnds {c : Command} {i : Instr} {s t : State} (h : Completes i s t) (hi : decode c = .instr i) :
    RequestEnds c s t := by
  have hcmd := cmdByteOf_of_decode hi
  cases h with
  | ok written => exact .ok written _ _ _
  | precise code info => exact hcmd ▸ .precise code info
  | overflow info value out => exact hcmd ▸ .overflow info value out

/-- Everything serving a request can do, where it gives a next state. -/
theorem serve_ends {c : Command} {s t : State} (h : serve c s = .next t) : RequestEnds c s t := by
  rcases serve_cases c s with ⟨i, hi, e⟩ | ⟨_, e⟩ | ⟨_, e⟩ <;> rw [e] at h
  · rcases exec_next_cases h with ⟨hp, hh, rfl⟩ | hcompletes
    · exact .held ((requestHeld_iff _ _ _).2 ⟨i, hi, hp, hh⟩)
    · exact hcompletes.requestEnds hi
  · cases h; exact .precise _ _
  · cases h

/-- The fault codes are 0x01 to 0x08 (R127). -/
theorem faultByte_range (code : FaultCode) : 1 ≤ (faultByte code).toNat ∧ (faultByte code).toNat ≤ 8 := by
  cases code <;> decide

/-! ### Serving a request and taking a step answer a next state (R126, R131) -/

/-- Where there is any storage, serving a request the port can carry does not stop the block. -/
theorem serve_answers {c : Command} {s : State} (hc : c.wf) (hpos : 0 < s.rb.capacity) : ∃ t, serve c s = .next t := by
  rcases serve_cases c s with ⟨i, _, e⟩ | ⟨_, e⟩ | ⟨hlong, _⟩
  · exact e ▸ exec_answers hpos i
  · exact ⟨_, e⟩
  · exact absurd hlong (decode_ne_dataTooLong hc)

theorem step_answers {s : State} (h : Inv s) : ∃ t, step s = .next t := by
  rcases step_cases s with ⟨_, e⟩ | ⟨a, c, rest, _, hq, _, e⟩
  · exact ⟨_, e⟩
  · have hc : c.wf := inv_queueOf h a c (by simp [hq])
    exact e ▸ serve_answers hc (inv_accept h a).ring.capacity_pos

/-! ### What A1 may not issue (R129, R138) -/

/-- The commands denied to A1 are those from byte 0x09 on. -/
theorem permitted_A1_eq_false_iff (i : Instr) : permitted .A1 i = false ↔ 9 ≤ (cmdByteOf i).toNat := by
  cases i <;> simp [permitted, ownerOnly, cmdByteOf]

/-- The permission check comes before the hold rule (R130), so a request that A1 may not issue is never held. -/
theorem requestHeld_A1_of_denied_byte {c : Command} (hc : 9 ≤ c.cmd.toNat) (owner : Option Agent) :
    requestHeld .A1 c owner = false := by
  rw [Bool.eq_false_iff, ne_eq, requestHeld_iff]
  rintro ⟨i, hi, hp, _⟩
  have hdenied := (permitted_A1_eq_false_iff i).2 (cmdByteOf_of_decode hi ▸ hc)
  cases hp.symm.trans hdenied

/-- What a denied command of A1 leaves: the record and the response, nothing else (R129, R132). -/
theorem exec_of_denied_A1 {i : Instr} {s : State} (hi : s.issuer = .A1) (hdenied : permitted .A1 i = false) :
    exec i s = .next { s with
      flog := s.flog ++ [⟨.A1, cmdByteOf i, .agentNotPermitted, .opcode (opcodeOf i)⟩], faultSeen := true
      responses := s.responses ++ [⟨.A1, 0x02, 0, [], false⟩] } := by
  rw [exec_denied (hi ▸ hdenied), ← hi]
  rfl

end Sys2Proof.Machine
end

section
/-! The statements of 60_exceptions.md. -/

namespace Sys2Proof.Proofs

open Sys2Proof.Machine

/-- Settles O14: of the ways a request ends, only a precise fault answers a status other than 0x00 and 0x07. -/
theorem faultsArePrecise : Obligations.FaultsArePrecise := by
  intro c s t r hs hr hok hover
  cases serve_ends hs with
  | held => simp at hr
  | ok written =>
    rw [finish_responses, written.keeps_responses] at hr
    cases List.append_cancel_left hr
    exact absurd rfl hok
  | precise code info =>
    rw [takePrecise_responses] at hr
    cases List.append_cancel_left hr
    exact ⟨code, info, rfl, rfl, rfl⟩
  | overflow =>
    rw [takeFault_responses, overflowDecoder_responses] at hr
    cases List.append_cancel_left hr
    exact absurd rfl hover

/-- Settles O15: a request that is not held ends by `finish` or by taking a fault, and each adds its one response. -/
theorem everyCommandCompletesOnceOrIsHeld : Obligations.EveryCommandCompletesOnceOrIsHeld := by
  intro c s t hs
  cases serve_ends hs with
  | held hheld => exact .inl ⟨hheld, rfl⟩
  | ok written =>
    exact .inr ⟨_, by rw [finish_responses, written.keeps_responses], written.keeps_issuer,
      .inl ⟨rfl, written.keeps_flog, written.keeps_faultSeen⟩⟩
  | precise code =>
    obtain ⟨hlo, hhi⟩ := faultByte_range code
    exact .inr ⟨_, rfl, rfl, .inr ⟨_, rfl, rfl, rfl, rfl, hlo, hhi, rfl⟩⟩
  | overflow =>
    obtain ⟨hlo, hhi⟩ := faultByte_range .decompressOverflow
    exact .inr ⟨_, rfl, rfl, .inr ⟨_, rfl, rfl, rfl, rfl, hlo, hhi, rfl⟩⟩

/-- Settles O54: the invariants give the ring storage and the queues requests the port can carry. -/
theorem nothingStopsTheBlock : Obligations.NothingStopsTheBlock :=
  fun _ h => ⟨step_answers h, exec_answers h.ring.capacity_pos⟩

/-- Settles O13: the permission check comes before the hold rule and the command's own rule. -/
theorem producerMayNotDecodeOrReset : Obligations.ProducerMayNotDecodeOrReset := fun _ hi =>
  ⟨fun _ _ => exec_of_denied_A1 hi rfl, exec_of_denied_A1 hi rfl, fun _ => exec_of_denied_A1 hi rfl,
    exec_of_denied_A1 hi rfl, fun _ owner hc => requestHeld_A1_of_denied_byte hc owner⟩

end Sys2Proof.Proofs
end

section
/-! SUPPORT. Reset and hazards: where an unlocked command leaves the ring (R150), what a step leaves of a queue and of the
responses (R48, R152), what reset gives (R145, R147), and that unspecified values are not observed (R146). -/

namespace Sys2Proof.Machine

open Sys2Proof.Safety

/-! ### The ring and the lock while another agent owns it (R44, R50, R150) -/

/-- Of the ring's commands all but RB_UNLOCK, which touches the lock alone, are in `LOCKED_OPS` (R49). -/
theorem CommandWrites.keeps_rb {s u : State} {i : Instr} (hw : CommandWrites s i u) (hi : lockedOp i = false) :
    u.rb = s.rb := by
  cases hw with
  | enqueued | dequeued | cleared | fed | connection => cases hi
  | _ => rfl

theorem exec_keeps_rb_of_unlockedOp {i : Instr} {s t : State} (hi : lockedOp i = false) (h : exec i s = .next t) :
    t.rb = s.rb := by
  cases exec_ends h with
  | held => rfl
  | ok writes => exact writes.keeps_rb hi
  | precise => rfl
  | overflow => rfl

/-- A request that is not held although another agent owns the lock is denied, or its command is outside `LOCKED_OPS`. -/
theorem denied_or_unlockedOp_of_not_held {a b : Agent} {c : Command} {i : Instr} (hi : decode c = .instr i) (hne : b ≠ a)
    (h : requestHeld a c (some b) = false) : permitted a i = false ∨ lockedOp i = false := by
  by_contra hcon
  simp only [not_or, Bool.not_eq_false] at hcon
  obtain ⟨hp, hl⟩ := hcon
  cases h.symm.trans ((requestHeld_iff _ _ _).2 ⟨i, hi, hp, held_of_other hl hne⟩)

/-- Serving such a request leaves the ring. -/
theorem serve_keeps_rb_of_other_owner {c : Command} {s t : State} {b : Agent} (hne : b ≠ s.issuer)
    (hfree : requestHeld s.issuer c (some b) = false) (h : serve c s = .next t) : t.rb = s.rb := by
  rcases serve_cases c s with ⟨i, hi, e⟩ | ⟨_, e⟩ | ⟨_, e⟩ <;> rw [e] at h
  · rcases denied_or_unlockedOp_of_not_held hi hne hfree with hdenied | hunlocked
    · cases h.symm.trans (exec_denied hdenied)
      rfl
    · exact exec_keeps_rb_of_unlockedOp hunlocked h
  · cases h; rfl
  · cases h

/-- Only its owner frees a lock, whatever is served (R32). -/
theorem serve_keeps_lock_of_other_owner {c : Command} {s t : State} {b : Agent} (ho : s.lockOwner = some b)
    (hne : b ≠ s.issuer) (h : serve c s = .next t) : t.lockOwner = some b := by
  rcases serve_cases c s with ⟨i, _, e⟩ | ⟨_, e⟩ | ⟨_, e⟩ <;> rw [e] at h
  · cases exec_ends h with
    | held | precise | overflow => exact ho
    | ok writes =>
      by_contra hcon
      rcases writes.lockOwner (ho ▸ hcon) with ⟨hnone, _⟩ | ⟨hown, _⟩
      · cases ho.symm.trans hnone
      · exact hne (Option.some.inj (ho.symm.trans hown))
  · cases h; exact ho
  · cases h

/-! ### Responses (R55, R152) -/

theorem RequestEnds.responses_grow {c : Command} {s t : State} (h : RequestEnds c s t) :
    ∃ l, t.responses = s.responses ++ l ∧ l.length ≤ 1 := by
  cases h with
  | held => exact ⟨[], (List.append_nil _).symm, Nat.zero_le 1⟩
  | ok written => exact ⟨[_], by rw [finish_responses, written.keeps_responses], Nat.le_refl 1⟩
  | precise => exact ⟨[_], rfl, Nat.le_refl 1⟩
  | overflow => exact ⟨[_], rfl, Nat.le_refl 1⟩

/-! ### A queue through steps and arrivals (R48, R54) -/

theorem UnitsWritten.keeps_queueOf {s u : State} (h : UnitsWritten s u) (a : Agent) : queueOf u a = queueOf s a := by
  cases h <;> cases a <;> rfl

theorem queueOf_finish (value : Nat) (out : List Byte) (more : Bool) (s : State) (a : Agent) :
    queueOf (finish value out more s) a = queueOf s a := by cases a <;> rfl

/-- Only taking a request shortens a queue: what the request then does leaves both. -/
theorem RequestEnds.keeps_queueOf {c : Command} {s t : State} (h : RequestEnds c s t) (a : Agent) :
    queueOf t a = queueOf s a := by
  cases h with
  | held => rfl
  | ok written => exact (queueOf_finish _ _ _ _ a).trans (written.keeps_queueOf a)
  | precise | overflow => cases a <;> rfl

theorem step_keeps_queueOf_of_not_served {s t : State} {a : Agent} (ha : arbitrate s ≠ some a) (h : step s = .next t) :
    queueOf t a = queueOf s a := by
  rcases step_cases s with ⟨_, e⟩ | ⟨b, c, _, hb, _, _, e⟩ <;> rw [e] at h
  · cases h; rfl
  · have hne : a ≠ b := fun hab => ha (hab ▸ hb)
    rw [(serve_ends h).keeps_queueOf a, queueOf_accept, if_neg hne]

theorem queueOf_submit (a b : Agent) (c : Command) (s : State) :
    queueOf (submit a c s) b = queueOf s b ++ if b = a then [c] else [] := by
  cases a <;> cases b <;> simp [submit, queueOf, setQueue]

/-- Arrivals join a queue at its end. -/
theorem queueOf_submitAll (arrivals : List (Agent × Command)) (s : State) (a : Agent) :
    ∃ l, queueOf (submitAll arrivals s) a = queueOf s a ++ l := by
  induction arrivals generalizing s with
  | nil => exact ⟨[], (List.append_nil _).symm⟩
  | cons x rest ih =>
    obtain ⟨l, hl⟩ := ih (submit x.1 x.2 s)
    exact ⟨_, hl.trans (by rw [queueOf_submit, List.append_assoc])⟩

/-- In a run a request at the head of its queue stays there until it is taken. -/
theorem head_stays_until_served {r : Nat → State} (hrun : IsRun r) {n : Nat} {a : Agent} {c : Command}
    {rest : List Command} (hq : queueOf (r n) a = c :: rest) (ha : arbitrate (r n) ≠ some a) :
    ∃ rest', queueOf (r (n + 1)) a = c :: rest' := by
  obtain ⟨t, arrivals, hstep, hnext⟩ := hrun n
  obtain ⟨l, hl⟩ := queueOf_submitAll arrivals t a
  exact ⟨rest ++ l, by rw [hnext, hl, step_keeps_queueOf_of_not_served ha hstep, hq, List.cons_append]⟩

/-! ### Power-on reset (R34, R144, R147) -/

theorem inv_powerOn {c : Config} (h : c.wf) : Inv (State.powerOn c) where
  cfg_wf := h
  ring := fresh_inv h
  decoder := fun _ => rfl
  seen := rfl
  queue0 := fun _ hc => absurd hc List.not_mem_nil
  queue1 := fun _ hc => absurd hc List.not_mem_nil

/-- The installed capacities lie in R7's ranges by their form (log entry 1). -/
theorem installed_wf : Config.installed.wf := by
  refine ⟨Nat.le_add_left 1 _, (exceedsMax_eq_false_iff _ _).2 fun m hm => ?_⟩
  obtain ⟨headroom, _, rfl⟩ := Option.map_eq_some_iff.1 hm
  exact Nat.le_add_right _ headroom

/-! ### Rings that differ at most in unspecified bytes (R21, R146) -/

section
variable {r q : Ring} (h : SameRing r q)
include h

theorem length_of_sameRing : q.length = r.length := by
  obtain ⟨_, _, _, hlen, _⟩ := h
  exact hlen.symm

theorem dequeueCount_of_sameRing (n : Arg) : dequeueCount n q = dequeueCount n r := by
  rw [dequeueCount, dequeueCount, length_of_sameRing h]

theorem peekCount_of_sameRing (n : Arg) : peekCount n q = peekCount n r := by
  obtain ⟨hcap, hhead, _, hlen, _⟩ := h
  rw [peekCount, peekCount, hcap, hhead, hlen]

theorem indexInRange_of_sameRing (n : Arg) : indexInRange n q = indexInRange n r := by
  rw [indexInRange, indexInRange, length_of_sameRing h]

theorem sameRing_clearRing : SameRing (clearRing r) (clearRing q) := by
  obtain ⟨hcap, _⟩ := h
  exact ⟨hcap, rfl, rfl, rfl, [], contents_of_length_zero rfl, contents_of_length_zero rfl⟩

variable {c : Config} (hr : RingInv c r) (hq : RingInv c q)
include hr hq

theorem sameRing_consume {n : Nat} (hn : n ≤ r.length) : SameRing (consume r n) (consume q n) := by
  obtain ⟨hcap, hhead, htail, hlen, xs, hx, hy⟩ := h
  refine ⟨?_, ?_, ?_, ?_, xs.drop n, contents_consume hx hn, contents_consume hy (hlen ▸ hn)⟩ <;>
    simp only [consume_eq hr, consume_eq hq, hcap, hhead, htail, hlen]

theorem sameRing_append {data : List Byte} (hfit : r.length + data.length ≤ r.capacity) :
    SameRing (append r data) (append q data) := by
  obtain ⟨hcap, hhead, htail, hlen, xs, hx, hy⟩ := h
  refine ⟨hcap, hhead, ?_, ?_, xs ++ data, contents_append hr hx hfit, contents_append hq hy (hcap ▸ hlen ▸ hfit)⟩ <;>
    simp only [append, hcap, htail, hlen]

/-- Room depends on capacity and length alone, and growth moves the live bytes alone (R69 to R71). -/
theorem makeRoom_of_sameRing (n : Nat) :
    (∃ newCap, makeRoom c r n = .exceeded newCap ∧ makeRoom c q n = .exceeded newCap) ∨
    ∃ r' q', makeRoom c r n = .room r' ∧ makeRoom c q n = .room q' ∧ SameRing r' q' ∧
      RingInv c r' ∧ RingInv c q' ∧ r'.length + n ≤ r'.capacity := by
  obtain ⟨hcap, hhead, htail, hlen, xs, hx, hy⟩ := id h
  by_cases hfit : r.length + n ≤ r.capacity
  · exact .inr ⟨r, q, makeRoom_of_fits c hfit, makeRoom_of_fits c (hcap ▸ hlen ▸ hfit), h, hr, hq, hfit⟩
  · have hn : 0 < n := by have := hr.length_le; omega
    have hfull : r.capacity < r.length + n := Nat.lt_of_not_le hfit
    have hfull' : q.capacity < q.length + n := hcap ▸ hlen ▸ hfull
    cases hmax : c.exceedsMax (grownCapacity (r.length + n)) with
    | true =>
      have hroom := makeRoom_of_exceeds hn hfull' (hlen ▸ hmax)
      rw [← hlen] at hroom
      exact .inl ⟨_, makeRoom_of_exceeds hn hfull hmax, hroom⟩
    | false =>
      have hle := le_grownCapacity (r.length + n)
      have hlt : r.length < grownCapacity (r.length + n) := by omega
      obtain ⟨r', hgrown₁, hcap₁, hhead₁, htail₁, hlen₁, _, hx₁, hinv₁⟩ := grow_spec hx hlt hmax
      obtain ⟨q', hgrown₂, hcap₂, hhead₂, htail₂, hlen₂, _, hx₂, hinv₂⟩ := grow_spec hy (hlen ▸ hlt) hmax
      have hgrow : mustGrow r n = true := (mustGrow_iff r n).2 ⟨hn, hfull⟩
      have hgrow' : mustGrow q n = true := (mustGrow_iff q n).2 ⟨hn, hfull'⟩
      refine .inr ⟨r', q', by simp [makeRoom, hgrow, hmax, hgrown₁],
        by simp [makeRoom, hgrow', ← hlen, hmax, hgrown₂],
        ⟨hcap₁.trans hcap₂.symm, hhead₁.trans hhead₂.symm, ?_, ?_, xs, hx₁, hx₂⟩, hinv₁, hinv₂, ?_⟩
      · rw [htail₁, htail₂, hlen]
      · rw [hlen₁, hlen₂, hlen]
      · rw [hlen₁, hcap₁]
        exact hle

/-- Storing a payload: from both rings room is refused alike, or the two rings after it differ as little as before. -/
theorem makeRoom_append_of_sameRing (data : List Byte) :
    (∃ newCap, makeRoom c r data.length = .exceeded newCap ∧ makeRoom c q data.length = .exceeded newCap) ∨
    ∃ r' q', makeRoom c r data.length = .room r' ∧ makeRoom c q data.length = .room q' ∧
      SameRing (append r' data) (append q' data) := by
  rcases makeRoom_of_sameRing h hr hq data.length with hexceeded | ⟨r', q', hroom, hroom', h', hr', hq', hfit⟩
  · exact .inl hexceeded
  · exact .inr ⟨r', q', hroom, hroom', sameRing_append h' hr' hq' hfit⟩

end

theorem sameRing_reallocate (r q : Ring) (n : Nat) : SameRing (reallocate r n) (reallocate q n) :=
  ⟨rfl, rfl, rfl, rfl, [], contents_of_length_zero rfl, contents_of_length_zero rfl⟩

/-! ### Decoders that differ at most in unspecified fields (R25, R26, R29, R146) -/

/-- The same outcome of `Decompress`, with decoders that differ at most in unspecified fields. -/
inductive SameDecompressed : Decompressed → Decompressed → Prop where
  | faulted : SameDecompressed .faulted .faulted
  | done {d e : Decoder} (h : SameDecoder d e) (out : List Byte) : SameDecompressed (.done d out) (.done e out)
  | overflow (out : List Byte) : SameDecompressed (.overflow out) (.overflow out)

/-- A FAULTED decoder is not read, and from a byte boundary `Decompress` is the walk from the tree node (R93, R106). -/
theorem decompress_of_sameDecoder {d e : Decoder} (h : SameDecoder d e) (t : Tree) (input : List Byte) (cap : Nat) :
    SameDecompressed (decompress t input cap d) (decompress t input cap e) := by
  obtain ⟨hstate, hcursor⟩ := h
  cases hd : d.dstate with
  | faulted =>
    rw [decompress_faulted _ _ _ _ hd, decompress_faulted _ _ _ _ (hstate ▸ hd)]
    exact .faulted
  | ready =>
    have he : e.dstate = .ready := hstate ▸ hd
    obtain ⟨h8, h8', hnode⟩ := hcursor hd
    by_cases hle : (walkBytes t d.treeNode input).2.length ≤ cap
    · obtain ⟨d', hd', hnode₁, hd8, hdr⟩ := decompress_of_walk_le hd h8 hle
      obtain ⟨e', he', hnode₂, he8, her⟩ := decompress_of_walk_le he h8' (hnode ▸ hle)
      rw [hd', he', ← hnode]
      exact .done ⟨hdr.trans her.symm, fun _ => ⟨hd8, he8, by rw [hnode₁, hnode₂, hnode]⟩⟩ _
    · rw [decompress_of_walk_gt hd h8 (Nat.lt_of_not_le hle),
        decompress_of_walk_gt he h8' (hnode ▸ Nat.lt_of_not_le hle), ← hnode]
      exact .overflow _

/-! ### States that differ at most in unspecified values, through one update (R146) -/

/-- A state that differs from `s` at most in unspecified values is `s` with another ring and decoder. -/
theorem sameSpecified_iff (s t : State) :
    SameSpecified s t ↔ ∃ q e, SameRing s.rb q ∧ SameDecoder s.dec e ∧ t = setDecoder e (setRing q s) :=
  ⟨fun ⟨hr, hd, ht⟩ => ⟨_, _, hr, hd, ht⟩, fun ⟨_, _, hr, hd, ht⟩ => by subst ht; exact ⟨hr, hd, rfl⟩⟩

section
variable {s t : State} (h : SameSpecified s t)
include h

theorem cfg_of_sameSpecified : t.cfg = s.cfg := by
  obtain ⟨_, _, ht⟩ := h
  rw [ht]

theorem issuer_of_sameSpecified : t.issuer = s.issuer := by
  obtain ⟨_, _, ht⟩ := h
  rw [ht]

theorem lockOwner_of_sameSpecified : t.lockOwner = s.lockOwner := by
  obtain ⟨_, _, ht⟩ := h
  rw [ht]

theorem compressEn_of_sameSpecified : t.compressEn = s.compressEn := by
  obtain ⟨_, _, ht⟩ := h
  rw [ht]

theorem sameSpecified_setRing {r q : Ring} (hr : SameRing r q) : SameSpecified (setRing r s) (setRing q t) := by
  obtain ⟨_, e, _, hd, rfl⟩ := (sameSpecified_iff s t).1 h
  exact ⟨hr, hd, rfl⟩

theorem sameSpecified_setDecoder {d e : Decoder} (hd : SameDecoder d e) :
    SameSpecified (setDecoder d s) (setDecoder e t) := by
  obtain ⟨q, _, hr, _, rfl⟩ := (sameSpecified_iff s t).1 h
  exact ⟨hr, hd, rfl⟩

/-- An update that neither reads nor writes ring and decoder. -/
theorem sameSpecified_of_frame {f : State → State} (hrb : (f s).rb = s.rb) (hdec : (f s).dec = s.dec)
    (hf : ∀ q e, f (setDecoder e (setRing q s)) = setDecoder e (setRing q (f s))) : SameSpecified (f s) (f t) := by
  obtain ⟨q, e, hr, hd, rfl⟩ := (sameSpecified_iff s t).1 h
  exact (sameSpecified_iff _ _).2 ⟨q, e, hrb ▸ hr, hdec ▸ hd, hf q e⟩

theorem sameSpecified_setLock (owner : Option Agent) : SameSpecified (setLock owner s) (setLock owner t) :=
  sameSpecified_of_frame h rfl rfl fun _ _ => rfl

theorem sameSpecified_setCompress : SameSpecified (setCompress s) (setCompress t) :=
  sameSpecified_of_frame h rfl rfl fun _ _ => rfl

theorem sameSpecified_finish (value : Nat) (out : List Byte) (more : Bool) :
    SameSpecified (finish value out more s) (finish value out more t) :=
  sameSpecified_of_frame h (f := finish value out more) rfl rfl fun _ _ => rfl

theorem sameSpecified_takeFault (cmd : Byte) (code : FaultCode) (info : FaultInfo) (value : Nat) (out : List Byte) :
    SameSpecified (takeFault cmd code info value out s) (takeFault cmd code info value out t) :=
  sameSpecified_of_frame h (f := takeFault cmd code info value out) rfl rfl fun _ _ => rfl

theorem sameSpecified_overflowDecoder : SameSpecified (overflowDecoder s) (overflowDecoder t) := by
  obtain ⟨q, e, hr, _, rfl⟩ := (sameSpecified_iff s t).1 h
  exact ⟨hr, ⟨rfl, fun hready => DState.noConfusion hready⟩, rfl⟩

theorem sameSpecified_resetConnection : SameSpecified (resetConnection s) (resetConnection t) := by
  obtain ⟨q, e, _, _, rfl⟩ := (sameSpecified_iff s t).1 h
  exact ⟨sameRing_reallocate _ _ _, ⟨rfl, fun _ => ⟨rfl, rfl, rfl⟩⟩, rfl⟩

end

/-! ### Commands from such states (R146) -/

/-- Both answer a next state, and the two states differ at most in unspecified values. -/
def SameNext (x y : Result) : Prop := ∃ s' t', x = .next s' ∧ y = .next t' ∧ SameSpecified s' t'

theorem sameNext_of_sameSpecified {s t : State} (h : SameSpecified s t) : SameNext (.next s) (.next t) :=
  ⟨s, t, rfl, rfl, h⟩

/-- A rule that tests the same of both states. -/
theorem sameNext_ite {p p' : Prop} [Decidable p] [Decidable p'] {x y x' y' : Result} (hp : p ↔ p')
    (hthen : p → SameNext x x') (helse : ¬ p → SameNext y y') :
    SameNext (if p then x else y) (if p' then x' else y') := by
  by_cases h : p
  · rw [if_pos h, if_pos (hp.1 h)]
    exact hthen h
  · rw [if_neg h, if_neg (mt hp.2 h)]
    exact helse h

section
variable {s t : State} (h : SameSpecified s t)
include h

theorem sameNext_finish (value : Nat) (out : List Byte) (more : Bool) :
    SameNext (.next (finish value out more s)) (.next (finish value out more t)) :=
  sameNext_of_sameSpecified (sameSpecified_finish h value out more)

theorem sameNext_takePrecise (cmd : Byte) (code : FaultCode) (info : FaultInfo) :
    SameNext (.next (takePrecise cmd code info s)) (.next (takePrecise cmd code info t)) :=
  sameNext_of_sameSpecified (sameSpecified_takeFault h cmd code info 0 [])

theorem sameNext_overflow (cmd : Byte) (info : FaultInfo) (value : Nat) (out : List Byte) :
    SameNext (.next (takeFault cmd .decompressOverflow info value out (overflowDecoder s)))
      (.next (takeFault cmd .decompressOverflow info value out (overflowDecoder t))) :=
  sameNext_of_sameSpecified (sameSpecified_takeFault (sameSpecified_overflowDecoder h) _ _ _ _ _)

/-- The common checks read the issuer and the lock alone. -/
theorem sameNext_guarded {i : Instr} {rule : State → Result} (hrule : SameNext (rule s) (rule t)) :
    SameNext (guarded i rule s) (guarded i rule t) := by
  unfold guarded
  rw [issuer_of_sameSpecified h, lockOwner_of_sameSpecified h]
  split
  · split
    · exact sameNext_of_sameSpecified h
    · exact hrule
  · exact sameNext_takePrecise h _ _ _

end

section
variable {s t : State} (h : SameSpecified s t) (hs : RingInv s.cfg s.rb) (ht : RingInv t.cfg t.rb)
include h hs ht

/-- The second half of RX_FEED reads the ring and writes ring and decoder. -/
theorem sameNext_storePayload {d e : Decoder} (hd : SameDecoder d e) (chunk payload : List Byte) (more : Bool) :
    SameNext (storePayload chunk payload d more s) (storePayload chunk payload e more t) := by
  obtain ⟨hring, _, _⟩ := id h
  rw [cfg_of_sameSpecified h] at ht
  rcases makeRoom_append_of_sameRing hring hs ht payload with ⟨_, es, et⟩ | ⟨_, _, es, et, hstored⟩ <;>
    simp only [storePayload, cfg_of_sameSpecified h, es, et]
  · exact sameNext_takePrecise h _ _ _
  · exact sameNext_finish (sameSpecified_setDecoder (sameSpecified_setRing h hstored) hd) _ _ _

/-- A command decides and answers by the specified values: the cursors, the live bytes, and D's walk from its node. -/
theorem exec_sameNext (i : Instr) : SameNext (exec i s) (exec i t) := by
  obtain ⟨hring, hdec, _⟩ := id h
  obtain ⟨_, _, _, hlen, xs, hx, hy⟩ := id hring
  have hcfg := cfg_of_sameSpecified h
  have hissuer := issuer_of_sameSpecified h
  have howner := lockOwner_of_sameSpecified h
  cases i <;> simp only [exec, execRbEnq, execRbDeq, execRbPeek, execRbClr, execRbIdx, execRbLen, execRbLock, execRbUnlock,
    execHdDec, execRxCmpen, execRxFeed, execConnRst] <;> refine sameNext_guarded h ?_
  case rbEnq data =>
    refine sameNext_ite Iff.rfl (fun _ => sameNext_finish h _ _ _) fun _ => ?_
    rw [hcfg] at ht ⊢
    rcases makeRoom_append_of_sameRing hring hs ht data with ⟨_, es, et⟩ | ⟨_, _, es, et, hstored⟩ <;> rw [es, et]
    · exact sameNext_takePrecise h _ _ _
    · exact sameNext_finish (sameSpecified_setRing h hstored) _ _ _
  case rbDeq n =>
    have hle := dequeueCount_le_length n s.rb
    rw [dequeueCount_of_sameRing hring, readLive_contents hx hle, readLive_contents hy (hlen ▸ hle)]
    exact sameNext_finish (sameSpecified_setRing h (sameRing_consume hring hs (hcfg ▸ ht) hle)) _ _ _
  case rbPeek n =>
    rw [readSegment_contents hx (peekCount_le_length n s.rb) (peekCount_le_segment n s.rb),
      readSegment_contents hy (peekCount_le_length n t.rb) (peekCount_le_segment n t.rb), peekCount_of_sameRing hring]
    exact sameNext_finish h _ _ _
  case rbClr => exact sameNext_finish (sameSpecified_setRing h (sameRing_clearRing hring)) _ _ _
  case rbIdx n =>
    refine sameNext_ite (by rw [indexInRange_of_sameRing hring]) (fun hin => ?_) fun _ => ?_
    · have hlt : argNat n < xs.length := contents_length hx ▸ of_decide_eq_true hin
      rw [live_contents hx hlt, live_contents hy hlt]
      exact sameNext_finish h _ _ _
    · rw [← hlen]
      exact sameNext_takePrecise h _ _ _
  case rbLen =>
    rw [← hlen]
    exact sameNext_finish h _ _ _
  case rbLock =>
    rw [hissuer]
    exact sameNext_ite (by rw [howner]) (fun _ => sameNext_takePrecise h _ _ _)
      fun _ => sameNext_finish (sameSpecified_setLock h _) _ _ _
  case rbUnlock =>
    rw [hissuer, howner]
    exact sameNext_ite Iff.rfl (fun _ => sameNext_finish (sameSpecified_setLock h _) _ _ _)
      fun _ => sameNext_takePrecise h _ _ _
  case hdDec cap chunk =>
    have hsame := decompress_of_sameDecoder hdec s.cfg.tree chunk (argNat cap)
    rw [hcfg]
    generalize decompress _ _ _ s.dec = x at hsame ⊢
    generalize decompress _ _ _ t.dec = y at hsame ⊢
    cases hsame with
    | faulted => exact sameNext_takePrecise h _ _ _
    | done hd out => exact sameNext_finish (sameSpecified_setDecoder h hd) _ _ _
    | overflow out => exact sameNext_overflow h _ _ _ _
  case rxCmpen => exact sameNext_finish (sameSpecified_setCompress h) _ _ _
  case rxFeed chunk =>
    have hsame := decompress_of_sameDecoder hdec s.cfg.tree chunk s.cfg.stageCap
    rw [hcfg]
    generalize decompress _ _ _ s.dec = x at hsame ⊢
    generalize decompress _ _ _ t.dec = y at hsame ⊢
    refine sameNext_ite (by rw [compressEn_of_sameSpecified h]) (fun _ => ?_)
      fun _ => sameNext_storePayload h hs ht hdec _ _ _
    cases hsame with
    | faulted => exact sameNext_takePrecise h _ _ _
    | done hd out => exact sameNext_storePayload h hs ht hd _ _ _
    | overflow out => exact sameNext_overflow h _ _ _ _
  case connRst => exact sameNext_finish (sameSpecified_resetConnection h) _ _ _

end

end Sys2Proof.Machine
end

section
/-! The statements of 70_reset_and_hazards.md. -/

namespace Sys2Proof.Proofs

open Sys2Proof.Machine Sys2Proof.Safety

/-- Settles O57: every command decides and answers by specified values, see `exec_sameNext`. -/
theorem unspecifiedValuesAreUnobservable : Obligations.UnspecifiedValuesAreUnobservable :=
  fun i _ _ hs ht h => exec_sameNext h hs ht i

/-- Settles O10: the request served is not held, so its command is denied, is outside `LOCKED_OPS`, or is none. -/
theorem lockedSequenceIsNotInterleaved : Obligations.LockedSequenceIsNotInterleaved := by
  intro s t a b ho hne harb hstep
  obtain ⟨c, _, _, hfree, e⟩ := step_of_arbitrate harb
  rw [e] at hstep
  rw [ho] at hfree
  exact ⟨(serve_keeps_rb_of_other_owner hne.symm hfree hstep).trans (accept_rb s a),
    serve_keeps_lock_of_other_owner ((accept_lockOwner s a).trans ho) hne.symm hstep⟩

/-- Settles O12: until it is taken the request stays at the head of its queue, where its agent could be served. -/
theorem fairRunServesUnheldRequests : Obligations.FairRunServesUnheldRequests := by
  intro r hrun hfair n a c rest hq hfree
  by_contra hnever
  have hstays : ∀ m, n ≤ m → ∃ rest', queueOf (r m) a = c :: rest' := fun m hm => by
    induction m, hm using Nat.le_induction with
    | base => exact ⟨rest, hq⟩
    | succ m hm ih =>
      obtain ⟨rest', hm'⟩ := ih
      exact head_stays_until_served hrun hm' fun harb => hnever ⟨m, rest', hm, harb, hm'⟩
  obtain ⟨m, hm, harb⟩ := hfair a n fun m hm => by
    obtain ⟨rest', hm'⟩ := hstays m hm
    exact (ready_iff _ a).2 ⟨c, rest', hm', hfree _⟩
  obtain ⟨rest', hm'⟩ := hstays m hm
  exact hnever ⟨m, rest', hm, harb, hm'⟩

/-- Settles O17: a wait answers nothing, and a request that is taken adds at most one response. -/
theorem responsesAreNeverRewritten : Obligations.ResponsesAreNeverRewritten := by
  intro s t h
  rcases step_cases s with ⟨_, e⟩ | ⟨a, c, _, _, _, _, e⟩ <;> rw [e] at h
  · cases h
    exact ⟨[], (List.append_nil _).symm, Nat.zero_le 1⟩
  · simpa only [accept_responses] using (serve_ends h).responses_grow

/-- Settles O49: the command is `resetConnection`. -/
theorem connRstEqualsPowerOnButLockAndLog : Obligations.ConnRstEqualsPowerOnButLockAndLog := by
  intro s t hi hs h
  cases h.symm.trans (exec_connRst hi hs)
  exact ⟨rfl, rfl, rfl, rfl, rfl, rfl, rfl, rfl, rfl, rfl, rfl⟩

/-- Settles O52: `State.reset` is power-on reset of the installed configuration, which is in range. -/
theorem resetMeetsTheInvariants : Obligations.ResetMeetsTheInvariants :=
  ⟨fun _ => inv_powerOn, inv_powerOn installed_wf⟩

end Sys2Proof.Proofs
end
